-- ==== Sys2Proof/Word.lean ====
section
/-! DEFINITION. The fixed-width values of the block: storage words, request words and the
six-bit `bits_consumed` register. -/

namespace Sys2Proof

/-- A 64-bit unsigned integer, the unit of the backing storage and of a read result (spec 00, R9, R10, R13). -/
abbrev Word := BitVec 64

/-- A byte of a written-out program (spec 95, section 3); the block itself never sees bytes (spec 20, R29). -/
abbrev Byte := BitVec 8

/-- A request word of format `REQ`, `N_FIELD_W = 7` bits wide (spec 30, R40). -/
abbrev RequestWord := BitVec 7

/-- The value of the `bits_consumed[5:0]` register, every pattern of which is legal (spec 10, R17). -/
abbrev BitOffset := BitVec 6

end Sys2Proof
end

