-- ==== Sys2Proof/Syntax.lean ====
section
/-! DEFINITION. The block's requests: spec/opcode_table.json has the one row `READ`. -/

namespace Sys2Proof

/-- One constructor per row of the opcode table. -/
inductive Instr where
  /-- `READ n` (spec 40, R53). The operand is the count as the natural number `zext(req[6:0])` of spec 30, R40;
  a request word carries `0 .. 127` only, which `Instr.WellFormed` says (notes/assumptions/13). -/
  | read (n : Nat)
  deriving DecidableEq, Repr

end Sys2Proof
end

