-- ==== Sys2Proof/WellFormed.lean ====
section
/-! DEFINITION. Which requests a request word can carry. -/

namespace Sys2Proof

/-- A request whose operand fits the seven-bit field `n` (spec 30, R40). Counts of `0` and `65 .. 127` are
well formed: they are requests that respond `InvalidBitCount` (spec 30, R42). -/
abbrev Instr.WellFormed : Instr → Prop
  | .read n => n < 128

end Sys2Proof
end

