-- ==== Sys2Proof/Decode.lean ====
section
/-! DEFINITION. Request words to requests and back (spec 30, R40 to R43), the same over the bytes in which
spec 95 writes a program, and the table's own numbering of a request's bits. -/

namespace Sys2Proof

/-- Spec 30, R41: every request word is `READ n` with `n = zext(req[6:0])`; decoding never refuses. -/
def decode (w : RequestWord) : Instr :=
  .read w.toNat

/-- Spec 30, R43: the request word a host presents for a count, which is the count itself where the field holds it
and, for a count of 128 or more, the word `127`, which the block also answers with `InvalidBitCount`. -/
def presentCount (m : Nat) : RequestWord :=
  if m < 128 then BitVec.ofNat 7 m else 127#7

/-- Spec 30, R40 and R48: `READ n` encodes as the word `n` (R43 for an operand no word holds). -/
def encode : Instr → RequestWord
  | .read n => presentCount n

/-- Spec 30, R43 and 70, R84: the host's duty when it presents the word `w` for the count `m`. A count the field
holds is presented as itself; a larger one as a word that `READ` answers with `InvalidBitCount`, never reduced. -/
def presents (m : Nat) (w : RequestWord) : Bool :=
  if m < 128 then w.toNat == m else w.toNat == 0 || decide (64 < w.toNat)

/-- Why bytes are not a written-out request. -/
inductive DecodeError where
  /-- No byte is left. Raised by `decodeBytes`; safe. -/
  | endOfInput
  /-- The byte is above `0x7F`, so it is no seven-bit request word. Raised by `decodeByte`; safe. -/
  | notARequestWord (b : Byte)
  deriving DecidableEq, Repr

/-- A byte of a written-out program (spec 95, section 3, "7-bit request words, written as hex bytes").
Bit 7 must be clear: a set bit is never dropped. DESIGN CHOICE (notes/assumptions/14, safe). -/
def decodeByte (b : Byte) : Except DecodeError Instr :=
  if b.toNat < 128 then .ok (decode (b.setWidth 7)) else .error (.notARequestWord b)

/-- The first request of a byte sequence, with the bytes after it. -/
def decodeBytes : List Byte → Except DecodeError (Instr × List Byte)
  | [] => .error .endOfInput
  | b :: rest =>
    match decodeByte b with
    | .ok i => .ok (i, rest)
    | .error e => .error e

/-- All requests of a byte sequence, in order; the first byte that is no request word is reported. -/
def decodeProgram : List Byte → Except DecodeError (List Instr)
  | [] => .ok []
  | b :: rest =>
    match decodeByte b, decodeProgram rest with
    | .ok i, .ok is => .ok (i :: is)
    | .error e, _ => .error e
    | .ok _, .error e => .error e

/-- The byte in which spec 95 writes a request word. -/
def encodeByte (i : Instr) : Byte :=
  (encode i).setWidth 8

/-- The written-out form of a sequence of requests. -/
def encodeProgram (is : List Instr) : List Byte :=
  is.map encodeByte

/-- The bits of a request as spec/opcode_table.json numbers them: bit 0 is the least significant bit of the one
request word, and every bit at or above `nbits` is 0. `none` where a bit outside the seven-bit word is set. -/
def tableRequestWord (nbits w : Nat) : Option RequestWord :=
  if w % 2 ^ nbits < 128 then some (BitVec.ofNat 7 (w % 2 ^ nbits)) else none

/-- The request the decoder reads from an opcode-table word. -/
def decodeTableWord (nbits w : Nat) : Option Instr :=
  (tableRequestWord nbits w).map decode

end Sys2Proof
end

