-- ==== Sys2Proof/Config.lean ====
section
/-! DEFINITION. The implementation parameters of the block (spec 00, R9): the `OPEN` ones as data that a
machine carries, with the bodiless constants that stand for them in the launch state. -/

namespace Sys2Proof

/-- The `OPEN` parameters of spec 00, R9. The machine carries them in its state because `step` takes nothing else;
no step writes them. -/
structure Config.Params where
  /-- `MAX_WORDS`: the largest word count a reader can hold (decision D8). -/
  maxWords : Nat
  /-- `NREADERS`: the number of reader instances, with ids `0 .. NREADERS - 1` (decision D15). -/
  nReaders : Nat
  deriving DecidableEq, Repr

/-- `MAX_WORDS` of the machine that `State.reset` describes: any natural number (notes/assumptions/2). -/
opaque Config.maxWords : Nat

/-- How many reader instances the machine of `State.reset` has beside instance 0 (notes/assumptions/2). -/
opaque Config.extraReaders : Nat

/-- The parameters of the machine of `State.reset`; nothing about them can be proved but that there is a reader.
DESIGN CHOICE (notes/assumptions/2, safe). -/
def Config.params : Config.Params :=
  { maxWords := Config.maxWords, nReaders := Config.extraReaders + 1 }

end Sys2Proof
end

