-- ==== Sys2Proof/Machine/State.lean ====
section
/-! DEFINITION. Everything the spec gives the machine, as plain data: the reader instances with their storage and
cursor, what is recorded of their accesses and responses, the host's actions still to come, and the launch state. -/

namespace Sys2Proof.Machine

/-- The word storage of one reader: words at the indices `0 .. length - 1`, nothing smaller and nothing else
(spec 10, R15; 20, R26, R34; notes/assumptions/16). -/
abbrev Memory := List Word

/-- One event of the access history, `(reader_id, request_seq, i)` (spec 20, R27). -/
structure Access where
  reader : Nat
  requestSeq : Nat
  index : Nat
  deriving DecidableEq, Repr

/-- The three outcomes a response can report (spec 30, R45); the code `0b11` is never produced. -/
inductive Status where
  | ok
  | invalidBitCount
  | endOfStream
  deriving DecidableEq, Repr

/-- The two error kinds (spec 60, R61). -/
inductive ErrorKind where
  | invalidBitCount
  | endOfStream
  deriving DecidableEq, Repr

/-- `RESP` (spec 30, R44). -/
structure Response where
  status : Status
  data : Word
  deriving DecidableEq, Repr

/-- A completed request: its count and the one response it produced. A response is an output, not state of the block
(spec 10, R14): no step reads a recorded transaction (notes/assumptions/3). -/
structure Transaction where
  count : Nat
  response : Response
  deriving DecidableEq, Repr

/-- One live reader instance: the tuple `(words, len, word_index, bits_consumed)` of spec 10, R14, and beside it what
the model records of it. -/
structure Reader where
  /-- Which storage of the host's the reader was constructed over; a label (spec 20, R36, R38; notes/assumptions/8). -/
  storage : Nat
  /-- `words` (spec 10, R15). -/
  words : Memory
  /-- `LEN` (spec 10, R15, R22; held as a natural number, notes/assumptions/5). -/
  len : Nat
  /-- `CURSOR_WI` (spec 10, R16, R22; held as a natural number, notes/assumptions/5). -/
  wordIndex : Nat
  /-- `CURSOR_BC` (spec 10, R17, R22). -/
  bitsConsumed : BitOffset
  /-- How many requests the reader has had since its construction (spec 20, R27; notes/assumptions/4). -/
  requestSeq : Nat
  /-- The access history, oldest event first (spec 20, R27). -/
  accesses : List Access
  /-- The responses given, oldest first (spec 30, R44). -/
  transactions : List Transaction
  deriving DecidableEq, Repr

/-- An instance that has been constructed: its reader while it lives, and nothing of it after its destruction, which
releases the storage (spec 70, R76). An instance that was never constructed is not listed at all (spec 70, R77). -/
inductive Slot where
  | live (r : Reader)
  | destroyed
  deriving DecidableEq, Repr

/-- What the host can do to the machine: the rows of spec 70, R84, and the breaches of its duties, which a model must
refuse (spec 92, D13; notes/assumptions/9). -/
inductive HostAction where
  /-- `CONSTRUCT(ws)` on an instance, over the storage the host calls `storage` (spec 70, R73). -/
  | construct (reader storage : Nat) (ws : List Word)
  /-- A read request: the caller asks for `count` bits and the host presents `word` on the instance's request port
  (spec 30, R39, R43). -/
  | request (reader count : Nat) (word : RequestWord)
  /-- Reading the status outputs of an instance (spec 30, R46). -/
  | observe (reader : Nat)
  /-- The end of an instance's lifetime (spec 70, R76). -/
  | destroy (reader : Nat)
  /-- A write to a storage by any agent (spec 20, R38). -/
  | writeStorage (storage index : Nat) (value : Word)
  /-- A request presented while one is outstanding on the same instance (spec 20, R35): a breach. -/
  | overlappingRequest (reader : Nat) (word : RequestWord)
  deriving DecidableEq, Repr

/-- Why the machine stops with a fault. -/
inductive Fault where
  /-- Raised by `MemRead` of an index outside `0 .. len - 1`, for which it is not defined (spec 00, R12; 20, R34).
  Safe; no state that satisfies spec 10, R18 reaches it (spec 20, R32; notes/assumptions/11). -/
  | wordIndexOutOfRange
  deriving DecidableEq, Repr

/-- Why the model gives a step no meaning. -/
inductive Refusal where
  /-- Raised by an arm of `exec` whose instruction has no meaning yet. Safe. -/
  | notModelled (mnemonic : String)
  /-- Raised by a request to, or the destruction of, an instance never constructed (spec 70, R77). Safe. -/
  | notConstructed
  /-- Raised by a request to, or the destruction of, a destroyed instance (spec 70, R84; 93 #10). Safe. -/
  | destroyedReader
  /-- Raised by a request in a state that breaks spec 10, R18 (R25; 93 #7). Safe. -/
  | brokenInvariant
  /-- Raised by `CONSTRUCT` with more than `MAX_WORDS` words (spec 70, R74). Safe. -/
  | tooManyWords
  /-- Raised by `CONSTRUCT` on an id that is not below `NREADERS` (spec 00, R9; 60, R71). Safe. -/
  | noSuchReader
  /-- Raised by a write to a storage while a reader over it lives, and by a `CONSTRUCT` that shows such a write has
  happened (spec 20, R38). Safe. -/
  | storageModified
  /-- Raised by a request presented while one is outstanding (spec 20, R35; 70, R84). Safe. -/
  | requestOutstanding
  /-- Raised by a request whose word does not stand for the caller's count (spec 30, R43; 70, R84). Safe. -/
  | countMisrepresented
  /-- Raised where a primitive is used outside its domain: a shift by 64 or more, or an extraction without the next
  word it needs (spec 00, R11; 93 #1). Safe; never reached (spec 40, R55). -/
  | undefinedOperation
  deriving DecidableEq, Repr

/-- The whole machine. -/
structure State where
  /-- The parameters of spec 00, R9, which no step writes. -/
  params : Config.Params
  /-- The instances ever constructed, by strictly rising id (spec 60, R71). -/
  readers : List (Nat × Slot)
  /-- The instance whose request port carries the request being executed (spec 30, R39; notes/assumptions/6). -/
  target : Nat
  /-- The host's actions still to come, the next one first (spec 30, R39; notes/assumptions/6). -/
  pending : List HostAction
  deriving DecidableEq, Repr

/-- A launch state of spec 70, R77: instance 0 right after `CONSTRUCT([])`, with the values of spec 70, R75. That the
storage is empty and that one instance is constructed is a DESIGN CHOICE (notes/assumptions/1, unsafe). -/
def State.reset : State where
  params := Config.params
  readers :=
    [(0, .live { storage := 0, words := [], len := 0, wordIndex := 0, bitsConsumed := 0#6,
                 requestSeq := 0, accesses := [], transactions := [] })]
  target := 0
  pending := []

end Sys2Proof.Machine
end

