-- ==== Sys2Proof/Machine/Ops.lean ====
section
/-! DEFINITION. The named operations every meaning is built from: the table of instances, `MemRead`, `respond`,
`raise` (spec 00, R12), and the shifts of a word (spec 00, R11). -/

namespace Sys2Proof.Machine

/-- The storage holds exactly the words of the indices `0 .. len - 1`. A list in index order has one form for each
storage, so equal storages are equal data (notes/assumptions/16). -/
abbrev Memory.wf (m : Memory) (len : Nat) : Prop :=
  m.length = len

/-- Spec 10, R18, items 1 and 2, with `len = length(words)` of R15; item 1, `bits_consumed < 64`, holds by the
register's width (R17). A reader that breaks this has no meaning (R25). -/
abbrev Reader.Ok (r : Reader) : Prop :=
  r.words.wf r.len ∧ r.wordIndex ≤ r.len ∧ (r.wordIndex = r.len → r.bitsConsumed = 0#6)

/-! ### The table of instances -/

/-- The entry of an id, `none` for an instance never constructed. -/
def lookupSlot (id : Nat) : List (Nat × Slot) → Option Slot
  | [] => none
  | (k, x) :: rest => if k = id then some x else lookupSlot id rest

/-- Writes the entry of an id, keeping the ids strictly rising. -/
def insertSlot (id : Nat) (x : Slot) : List (Nat × Slot) → List (Nat × Slot)
  | [] => [(id, x)]
  | (k, y) :: rest =>
    if id < k then (id, x) :: (k, y) :: rest
    else if id = k then (id, x) :: rest
    else (k, y) :: insertSlot id x rest

/-- The canonical form of the table: strictly rising ids, so that equal tables are equal data. -/
abbrev slotsWf (l : List (Nat × Slot)) : Prop :=
  l.Pairwise fun a b => a.1 < b.1

def State.slot (s : State) (id : Nat) : Option Slot :=
  lookupSlot id s.readers

def State.setSlot (s : State) (id : Nat) (x : Slot) : State :=
  { s with readers := insertSlot id x s.readers }

/-- The reader of an instance that lives. -/
def State.liveReader (s : State) (id : Nat) : Option Reader :=
  match s.slot id with
  | some (.live r) => some r
  | _ => none

/-- Carries out a reader's step on the instance that the request addresses, and on no other (spec 60, R71). Without a
constructed, undestroyed instance in a state of spec 10, R18, the request has no meaning (R25; 70, R77, R84). -/
def State.onTarget (s : State) (f : Reader → Host.Outcome Reader Fault Refusal) :
    Host.Outcome State Fault Refusal :=
  match s.slot s.target with
  | none => .refused .notConstructed
  | some .destroyed => .refused .destroyedReader
  | some (.live r) =>
    if r.Ok then
      match f r with
      | .next r' => .next (s.setSlot s.target (.live r'))
      | .fault e => .fault e
      | .refused e => .refused e
    else .refused .brokenInvariant

/-! ### Shifts -/

/-- `w >> s`: zeros come in from above; defined only for `0 ≤ s ≤ 63` (spec 00, R11; 93 #1). -/
def shiftRight (w : Word) (s : Nat) : Option Word :=
  if s ≤ 63 then some (w >>> s) else none

/-- `w << s`, truncated to 64 bits; defined only for `0 ≤ s ≤ 63` (spec 00, R11; 93 #1). -/
def shiftLeft (w : Word) (s : Nat) : Option Word :=
  if s ≤ 63 then some (w <<< s) else none

/-! ### The operations of a request on its reader -/

/-- `MemRead(i, 1)`: the word at index `i`, with the event recorded; `none` outside `0 .. len - 1`, where it is not
defined (spec 00, R12; 20, R27). -/
def Reader.memRead (r : Reader) (id i : Nat) : Option (Word × Reader) :=
  match r.words[i]? with
  | none => none
  | some w =>
    some (w, { r with accesses := r.accesses ++ [{ reader := id, requestSeq := r.requestSeq, index := i }] })

/-- `respond(status, data)`: ends the request of count `n` with that one response (spec 00, R12; 30, R44). -/
def Reader.respond (r : Reader) (n : Nat) (status : Status) (data : Word) : Reader :=
  { r with
    requestSeq := r.requestSeq + 1
    transactions := r.transactions ++ [{ count := n, response := { status := status, data := data } }] }

/-- The status by which a response reports an error (spec 30, R45; 60, R61). -/
def ErrorKind.status : ErrorKind → Status
  | .invalidBitCount => .invalidBitCount
  | .endOfStream => .endOfStream

/-- `raise E()`: ends the request with `respond(code(E), 0)`; no register is written and no word read (spec 00, R12;
60, R66). There is no trap to take and none to return from (60, R67). -/
def Reader.raise (r : Reader) (n : Nat) (e : ErrorKind) : Reader :=
  r.respond n e.status 0#64

/-- Spec 70, R73 and R75: a reader right after `CONSTRUCT(ws)`. -/
def Reader.construct (storage : Nat) (ws : List Word) : Reader where
  storage := storage
  words := ws
  len := ws.length
  wordIndex := 0
  bitsConsumed := 0#6
  requestSeq := 0
  accesses := []
  transactions := []

/-- `T = p = word_index * 64 + bits_consumed`: the bits consumed since construction, and the position of the next
bit (spec 10, R18, R19). -/
def Reader.position (r : Reader) : Nat :=
  r.wordIndex * 64 + r.bitsConsumed.toNat

/-- `rem`: the bits not yet consumed (spec 10, R19). -/
def Reader.remaining (r : Reader) : Nat :=
  r.len * 64 - r.position

end Sys2Proof.Machine
end

