-- ==== Sys2Proof/Machine/Operands.lean ====
section
/-! DEFINITION. The component functions of a read: mask, split, `word_boundary_straddle_extractor` and the cursor
advance (spec 40, R49 to R52), and the fetch of the one or two words a read draws from (spec 20, R31). -/

namespace Sys2Proof.Machine

/-- `mask(k)`: bits `0 .. k - 1` set, defined for `0 ≤ k ≤ 64`; the case 64 is the constant and no shift (spec 40,
R49; 70, R80). -/
def mask (k : Nat) : Option Word :=
  if k = 64 then some 0xFFFFFFFFFFFFFFFF#64 else (shiftLeft 1#64 k).map (· - 1#64)

/-- `leftover`: the still-unread bits of the current word (spec 10, R19). -/
def leftover (c : BitOffset) : Nat :=
  64 - c.toNat

/-- `take_cur`: the result bits drawn from the current word (spec 40, R50). -/
def takeCur (c : BitOffset) (n : Nat) : Nat :=
  min (leftover c) n

/-- `take_next`: the result bits drawn from the next word (spec 40, R50). -/
def takeNext (c : BitOffset) (n : Nat) : Nat :=
  n - takeCur c n

/-- Part 1 of a result, its low group of bits (spec 40, R51). -/
def part1 (w0 : Word) (c : BitOffset) (n : Nat) : Option Word :=
  match shiftRight w0 c.toNat, mask (takeCur c n) with
  | some x, some m => some (x &&& m)
  | _, _ => none

/-- Part 2 of a result, its high group of bits: the next word is consulted only when `take_next > 0` (spec 40, R51). -/
def part2 (w1 : Option Word) (c : BitOffset) (n : Nat) : Option Word :=
  if 0 < takeNext c n then
    match w1, mask (takeNext c n) with
    | some w, some m => shiftLeft (w &&& m) (takeCur c n)
    | _, _ => none
  else some 0#64

/-- `word_boundary_straddle_extractor(w0, w1, c, n)`, with `w1` absent where it is not read (spec 40, R51; decision
D17). `none` where a shift or a missing next word leaves it undefined, which a read never meets (R55). -/
def wordBoundaryStraddleExtractor (w0 : Word) (w1 : Option Word) (c : BitOffset) (n : Nat) : Option Word :=
  match part1 w0 c n, part2 w1 c n with
  | some a, some b => some (a ||| b)
  | _, _ => none

/-- `advance(wi, c, n)` in the collapsed form of spec 40, R52 (decision D16). -/
def advance (wi : Nat) (c : BitOffset) (n : Nat) : Nat × BitOffset :=
  if c.toNat + n < 64 then (wi, BitVec.ofNat 6 (c.toNat + n))
  else (wi + 1, BitVec.ofNat 6 (c.toNat + n - 64))

/-- `(wi, c) <- advance(wi, c, n)` (spec 40, R53). -/
def Reader.advanceBy (r : Reader) (n : Nat) : Reader :=
  { r with
    wordIndex := (advance r.wordIndex r.bitsConsumed n).1
    bitsConsumed := (advance r.wordIndex r.bitsConsumed n).2 }

/-- What a read has fetched: the current word, the next word if it was needed, and the reader with the events. -/
structure Fetched where
  current : Word
  following : Option Word
  reader : Reader
  deriving DecidableEq, Repr

/-- The accesses of a successful read, in their order: `words[wi]`, then `words[wi + 1]` exactly when
`take_next > 0`, and never otherwise (spec 20, R31; 40, R53; 70, R82). -/
def Reader.fetch (r : Reader) (id n : Nat) : Option Fetched :=
  match r.memRead id r.wordIndex with
  | none => none
  | some (w0, r1) =>
    if 0 < takeNext r.bitsConsumed n then
      match r1.memRead id (r.wordIndex + 1) with
      | none => none
      | some (w1, r2) => some { current := w0, following := some w1, reader := r2 }
    else some { current := w0, following := none, reader := r1 }

end Sys2Proof.Machine
end

