-- ==== Sys2Proof/Machine/Flags.lean ====
section
/-! DEFINITION. The block has no flags (spec 10, R23). What a request reports instead: the status codes and the
rule that picks the error of a request (spec 30, R45; 60, R61 to R64). -/

namespace Sys2Proof.Machine

/-- The numeric status codes; `0b11` is produced by no status (spec 30, R45). -/
def Status.code : Status → BitVec 2
  | .ok => 0b00#2
  | .invalidBitCount => 0b01#2
  | .endOfStream => 0b10#2

/-- Spec 60, R62 to R64: the one error a `READ n` raises, if any. The count is tested first; the availability test is
exact on natural numbers (spec 70, R81). -/
def requestError (r : Reader) (n : Nat) : Option ErrorKind :=
  if n = 0 ∨ 64 < n then some .invalidBitCount
  else if r.len * 64 < r.wordIndex * 64 + r.bitsConsumed.toNat + n then some .endOfStream
  else none

/-- The availability test as an implementation makes it, in adders of `w` bits (spec 70, R81: `IDX_W + 7` suffice). -/
def exhaustedInWidth (w : Nat) (r : Reader) (n : Nat) : Bool :=
  (BitVec.ofNat w r.len * 64).ult (BitVec.ofNat w r.wordIndex * 64 + r.bitsConsumed.setWidth w + BitVec.ofNat w n)

end Sys2Proof.Machine
end

