-- ==== Sys2Proof/Machine/Read.lean ====
section
/-! DEFINITION. The meaning of `READ n` (spec 40, R53). -/

namespace Sys2Proof.Machine

/-- `READ n` on the reader of instance `id` (spec 40, R53): the checks in the order of 60, R64, the accesses of 20,
R31, the extractor, the advance, the response. -/
def readOn (id n : Nat) (r : Reader) : Host.Outcome Reader Fault Refusal :=
  match requestError r n with
  | some e => .next (r.raise n e)
  | none =>
    match r.fetch id n with
    | none => .fault .wordIndexOutOfRange
    | some f =>
      match wordBoundaryStraddleExtractor f.current f.following r.bitsConsumed n with
      | none => .refused .undefinedOperation
      | some data => .next ((f.reader.advanceBy n).respond n .ok data)

/-- `READ n`, on the instance whose request port carries it. -/
def execRead (n : Nat) (s : State) : Host.Outcome State Fault Refusal :=
  s.onTarget (readOn s.target n)

end Sys2Proof.Machine
end

