-- ==== Sys2Proof/Machine/Dispatch.lean ====
section
/-! DEFINITION. One arm per request of the opcode table. -/

namespace Sys2Proof.Machine

/-- What a request does to the machine: the meaning of its opcode-table row (spec 40, R53). -/
def exec (i : Instr) (s : State) : Host.Outcome State Fault Refusal :=
  match i with
  | .read n => Sys2Proof.Machine.execRead n s

end Sys2Proof.Machine
end

