-- ==== Sys2Proof/Machine/HostPort.lean ====
section
/-! DEFINITION. What each action of the host does to the machine (spec 70, R84). -/

namespace Sys2Proof.Machine

/-- Some live instance other than `id` is over the storage `storage` with contents other than `ws`, so the storage has
been written while a reader over it lives (spec 20, R36, R38). -/
def storageConflict (id storage : Nat) (ws : List Word) : List (Nat × Slot) → Bool
  | [] => false
  | (k, .live r) :: rest =>
    (decide (k ≠ id) && decide (r.storage = storage) && decide (r.words ≠ ws)) || storageConflict id storage ws rest
  | (_, .destroyed) :: rest => storageConflict id storage ws rest

/-- Some live instance is over the storage `storage`. -/
def storageInUse (storage : Nat) : List (Nat × Slot) → Bool
  | [] => false
  | (_, .live r) :: rest => decide (r.storage = storage) || storageInUse storage rest
  | (_, .destroyed) :: rest => storageInUse storage rest

/-- `CONSTRUCT(ws)` on instance `id`: a new lifetime that keeps nothing of an old one (spec 70, R73, R76). No response,
no event. The only checks are that the instance exists, that `ws` is not too long (R74) and that a storage shared
with another reader is unmodified (20, R38; notes/assumptions/8). -/
def construct (id storage : Nat) (ws : List Word) (s : State) : Host.Outcome State Fault Refusal :=
  if s.params.nReaders ≤ id then .refused .noSuchReader
  else if s.params.maxWords < ws.length then .refused .tooManyWords
  else if storageConflict id storage ws s.readers then .refused .storageModified
  else .next (s.setSlot id (.live (Reader.construct storage ws)))

/-- A request on the port of instance `id`: the word is decoded and executed (spec 30, R39, R41), provided it stands
for the count the caller asked for (R43). -/
def request (id count : Nat) (word : RequestWord) (s : State) : Host.Outcome State Fault Refusal :=
  if presents count word then exec (decode word) { s with target := id } else .refused .countMisrepresented

/-- The end of an instance's lifetime, which releases its storage and has no other effect (spec 70, R76). -/
def destroy (id : Nat) (s : State) : Host.Outcome State Fault Refusal :=
  match s.slot id with
  | none => .refused .notConstructed
  | some .destroyed => .refused .destroyedReader
  | some (.live _) => .next (s.setSlot id .destroyed)

/-- Reading the status outputs, which has no side effect (spec 30, R46); they are `State.outputs`. -/
def observe (_id : Nat) (s : State) : Host.Outcome State Fault Refusal :=
  .next s

/-- A write to a storage by any agent: no meaning while a reader over it lives (spec 20, R38), and no concern of the
block otherwise (notes/assumptions/15). -/
def writeStorage (storage _index : Nat) (_value : Word) (s : State) : Host.Outcome State Fault Refusal :=
  if storageInUse storage s.readers then .refused .storageModified else .next s

/-- A request while one is outstanding on the same instance has no meaning (spec 20, R35; 70, R84). -/
def overlappingRequest (_id : Nat) (_word : RequestWord) (_s : State) : Host.Outcome State Fault Refusal :=
  .refused .requestOutstanding

/-- One action of the host. -/
def perform (a : HostAction) (s : State) : Host.Outcome State Fault Refusal :=
  match a with
  | .construct id storage ws => construct id storage ws s
  | .request id count word => request id count word s
  | .observe id => observe id s
  | .destroy id => destroy id s
  | .writeStorage storage index value => writeStorage storage index value s
  | .overlappingRequest id word => overlappingRequest id word s

/-- Takes the next action of the host, if there is one; without one the block holds its state (spec 60, R72). -/
def takeAction (s : State) : Host.Outcome State Fault Refusal :=
  match s.pending with
  | [] => .next s
  | a :: rest => perform a { s with pending := rest }

/-- Several actions in order, each complete before the next (spec 20, R35), stopping at the first that stops. -/
def performAll : List HostAction → State → Host.Outcome State Fault Refusal
  | [], s => .next s
  | a :: rest, s =>
    match perform a s with
    | .next t => performAll rest t
    | .fault e => .fault e
    | .refused e => .refused e

/-- Several requests on the port of one instance, presented as they are (no count above `127` is meant). -/
def readRequests (id : Nat) (words : List RequestWord) : List HostAction :=
  words.map fun w => .request id w.toNat w

/-- A request placed as the host's next action, on the port of the current target. -/
def State.presentNext (s : State) (w : RequestWord) : State :=
  { s with pending := .request s.target w.toNat w :: s.pending }

end Sys2Proof.Machine
end

