-- ==== Sys2Proof/Machine/Step.lean ====
section
/-! DEFINITION. One step of the machine, and how a request is placed before it. -/

namespace Sys2Proof.Machine

/-- The host's next action, or nothing where the host does nothing (spec 60, R72; 70, R83). -/
def step (s : State) : Host.Outcome State Fault Refusal :=
  takeAction s

/-- The state with an opcode-table word presented as the very next request, on the port of the current target. A table
word with a bit outside the seven-bit request word is no request, and nothing is presented (notes/assumptions/14). -/
def State.withFetchWord (s : State) (nbits w : Nat) : State :=
  match tableRequestWord nbits w with
  | some word => s.presentNext word
  | none => s

end Sys2Proof.Machine
end

