-- ==== Sys2Proof/Machine/Assembler.lean ====
section
/-! DEFINITION. The line syntax in which the spec writes its programs (spec 30, R48): reading a line of characters and
writing a request as one. Its letters, numbers and comments are the spec's; how much white space may stand between
tokens is a DESIGN CHOICE (notes/assumptions/17). -/

namespace Sys2Proof.Machine

/-- What one line says. -/
inductive AsmLine where
  | construct (ws : List Word)
  | read (i : Instr)
  /-- Only white space and a comment. -/
  | blank
  deriving DecidableEq, Repr

/-- Why a line is not of the form of spec 30, R48. -/
inductive AsmError where
  /-- A numeral is not made of digits of its base. Raised by `parseLine`; safe. -/
  | notANumeral
  /-- A count above 127 or a word above 64 bits: never reduced (spec 30, R43). Raised by `parseLine`; safe. -/
  | outOfRange
  /-- The line is neither `CONSTRUCT [..]` nor `READ n`. Raised by `parseLine`; safe. -/
  | malformed
  deriving DecidableEq, Repr

/-- The value of a digit, in either case of letter. -/
def digitValue (ch : Char) : Option Nat :=
  if 48 ≤ ch.toNat ∧ ch.toNat ≤ 57 then some (ch.toNat - 48)
  else if 65 ≤ ch.toNat ∧ ch.toNat ≤ 70 then some (ch.toNat - 55)
  else if 97 ≤ ch.toNat ∧ ch.toNat ≤ 102 then some (ch.toNat - 87)
  else none

/-- Digits of a base, most significant first (spec 00, R10). -/
def digitsValue (base acc : Nat) : List Char → Option Nat
  | [] => some acc
  | ch :: rest =>
    match digitValue ch with
    | some d => if d < base then digitsValue base (acc * base + d) rest else none
    | none => none

/-- A hexadecimal numeral `0x…`, in which a `_` only groups digits (spec 00, R10). -/
def hexNumeral : List Char → Option Nat
  | '0' :: 'x' :: digits =>
    match digits.filter (· ≠ '_') with
    | [] => none
    | d :: ds => digitsValue 16 0 (d :: ds)
  | _ => none

/-- A hexadecimal or decimal numeral. -/
def numeral : List Char → Option Nat
  | '0' :: 'x' :: digits => hexNumeral ('0' :: 'x' :: digits)
  | [] => none
  | d :: ds => digitsValue 10 0 (d :: ds)

/-- Puts a gathered token in front, unless it is empty. -/
def pushToken (acc : List Char) (rest : List (List Char)) : List (List Char) :=
  match acc with
  | [] => rest
  | ch :: chs => (ch :: chs) :: rest

/-- The tokens of a line up to a `;`: brackets and commas alone, everything else between white space. -/
def tokensFrom (acc : List Char) : List Char → List (List Char)
  | [] => pushToken acc []
  | ch :: rest =>
    if ch = ';' then pushToken acc []
    else if ch = ' ' ∨ ch = '\t' then pushToken acc (tokensFrom [] rest)
    else if ch = '[' ∨ ch = ']' ∨ ch = ',' then pushToken acc ([ch] :: tokensFrom [] rest)
    else tokensFrom (acc ++ [ch]) rest

/-- One word of a storage, in hexadecimal (spec 30, R48). -/
def wordToken (t : List Char) : Except AsmError Word :=
  match hexNumeral t with
  | none => .error .notANumeral
  | some v => if v < 2 ^ 64 then .ok (BitVec.ofNat 64 v) else .error .outOfRange

/-- The words after the first one, up to the closing bracket. -/
def moreWords : List (List Char) → Except AsmError (List Word)
  | [[']']] => .ok []
  | [','] :: t :: rest =>
    match wordToken t, moreWords rest with
    | .ok w, .ok ws => .ok (w :: ws)
    | .error e, _ => .error e
    | .ok _, .error e => .error e
  | _ => .error .malformed

/-- The words of a storage after the opening bracket; there may be none (spec 70, R73). -/
def storageWords : List (List Char) → Except AsmError (List Word)
  | [[']']] => .ok []
  | t :: rest =>
    match wordToken t, moreWords rest with
    | .ok w, .ok ws => .ok (w :: ws)
    | .error e, _ => .error e
    | .ok _, .error e => .error e
  | [] => .error .malformed

/-- Reads one line (spec 30, R48). -/
def parseLine (line : List Char) : Except AsmError AsmLine :=
  match tokensFrom [] line with
  | [] => .ok .blank
  | [['R', 'E', 'A', 'D'], t] =>
    match numeral t with
    | none => .error .notANumeral
    | some n => if n < 128 then .ok (.read (.read n)) else .error .outOfRange
  | ['C', 'O', 'N', 'S', 'T', 'R', 'U', 'C', 'T'] :: ['['] :: rest =>
    match storageWords rest with
    | .ok ws => .ok (.construct ws)
    | .error e => .error e
  | _ => .error .malformed

/-- The decimal digits of a count that a request word carries. -/
def countDigits (n : Nat) : List Char :=
  (if 100 ≤ n then [Char.ofNat (48 + n / 100)] else []) ++
    (if 10 ≤ n then [Char.ofNat (48 + n / 10 % 10)] else []) ++ [Char.ofNat (48 + n % 10)]

/-- Writes a request as a line (spec 30, R48). -/
def printInstr : Instr → List Char
  | .read n => ['R', 'E', 'A', 'D', ' '] ++ countDigits n

/-- The action of the host that a line stands for, on one instance and storage (spec 30, R48). -/
def AsmLine.actions (id storage : Nat) : AsmLine → List HostAction
  | .construct ws => [.construct id storage ws]
  | .read i => [.request id (encode i).toNat (encode i)]
  | .blank => []

end Sys2Proof.Machine
end

