-- ==== Sys2Proof/Machine/StatusOutputs.lean ====
section
/-! DEFINITION. The three status outputs and the register width they have (spec 30, R46; 00, R9). -/

namespace Sys2Proof.Machine

/-- `IDX_W`: the least `w ≥ 1` with `2 ^ w > MAX_WORDS` (spec 00, R9). -/
def idxW (maxWords : Nat) : Nat :=
  Nat.log2 maxWords + 1

/-- `cur_len`, `cur_word_index` and `cur_bits_consumed`, the first two `w = IDX_W` bits wide (spec 30, R46). -/
structure StatusOutputs (w : Nat) where
  len : BitVec w
  wordIndex : BitVec w
  bitsConsumed : BitVec 6
  deriving DecidableEq, Repr

/-- What a live instance drives at any time: each output is the register of the same name (spec 30, R46; 10, R22). -/
def State.outputs (s : State) (id : Nat) : Option (StatusOutputs (idxW s.params.maxWords)) :=
  (s.liveReader id).map fun r =>
    { len := BitVec.ofNat _ r.len, wordIndex := BitVec.ofNat _ r.wordIndex, bitsConsumed := r.bitsConsumed }

end Sys2Proof.Machine
end

