-- ==== Sys2Proof/Machine/Stream.lean ====
section
/-! DEFINITION. The stream a storage stands for, the declarative form of a read's result, and the three cursor
states (spec 20, R28; 40, R54; 10, R21). -/

namespace Sys2Proof.Machine

/-- `streambit(k) = (words[k / 64] >> (k mod 64)) & 1`, defined for `0 ≤ k < len * 64` (spec 20, R28). -/
def streamBit (words : Memory) (k : Nat) : Option Bool :=
  (words[k / 64]?).map fun w => w.getLsbD (k % 64)

/-- Spec 40, R54: the sum over `j < n` of `streambit(p + j) << j`, on 64-bit words. -/
def streamSum (words : Memory) (p : Nat) : Nat → Word
  | 0 => 0#64
  | n + 1 =>
    streamSum words p n + ((BitVec.ofBool ((streamBit words (p + n)).getD false)).setWidth 64 <<< n)

/-- The stream bits at the positions `p .. p + n - 1`. -/
def streamBits (words : Memory) (p n : Nat) : List (Option Bool) :=
  (List.range n).map fun j => streamBit words (p + j)

/-- The results of reads of the given counts, each shifted up by the counts before it, in one word (spec 40, R57,
law 2). -/
def orShifted (k : Nat) : List (Nat × Word) → Word
  | [] => 0#64
  | (n, d) :: rest => (d <<< k) ||| orShifted (k + n) rest

/-- The bits a response delivers: the low `count` bits of the data of a successful read, lowest first. -/
def Transaction.bits (x : Transaction) : List (Option Bool) :=
  match x.response.status with
  | .ok => (List.range x.count).map fun j => some (x.response.data.getLsbD j)
  | _ => []

/-- All bits a reader has returned since its construction, in the order it returned them. -/
def Reader.delivered (r : Reader) : List (Option Bool) :=
  r.transactions.flatMap Transaction.bits

/-- The cursor states (spec 10, R21; 90, C3). -/
inductive CursorState where
  | freshWord
  | withinWord
  | exhausted
  deriving DecidableEq, Repr

/-- Which state a cursor is in (spec 10, R21). -/
def Reader.cursorState (r : Reader) : CursorState :=
  if r.wordIndex = r.len then .exhausted
  else if r.bitsConsumed = 0#6 then .freshWord
  else .withinWord

end Sys2Proof.Machine
end

