-- ==== Sys2Proof/Safety.lean ====
section
/-! DEFINITION. What a good state is, and when the host keeps its duties. -/

namespace Sys2Proof.Machine

/-- The invariants "before and after every operation" of spec 10, R18, over the whole machine, with the bounds of R15
and R22, the sharing of 20, R36, and the canonical form of the model's own table. -/
structure State.Inv (s : State) : Prop where
  /-- The table of instances is in its canonical form. -/
  table : slotsWf s.readers
  /-- Spec 10, R18, items 1 and 2, and the storage's canonical form. -/
  readerOk : ∀ id r, s.slot id = some (.live r) → r.Ok
  /-- Spec 10, R15: `len ≤ MAX_WORDS`. -/
  lenBound : ∀ id r, s.slot id = some (.live r) → r.len ≤ s.params.maxWords
  /-- Spec 00, R9: the instances constructed are among the `NREADERS`. -/
  idBound : ∀ id x, s.slot id = some x → id < s.params.nReaders
  /-- Spec 20, R36 and R38: readers over one storage see the same words. -/
  shared : ∀ id id' r r', s.slot id = some (.live r) → s.slot id' = some (.live r') →
    r.storage = r'.storage → r.words = r'.words

/-- Spec 20, R35: the bits returned since construction are the first `T` bits of the stream, each once and in order. -/
def Reader.InOrder (r : Reader) : Prop :=
  r.delivered = streamBits r.words 0 r.position

/-- Every live reader has returned its stream in order. -/
def State.InOrder (s : State) : Prop :=
  ∀ id r, s.slot id = some (.live r) → r.InOrder

/-- What is recorded of a reader's requests: one response a request (spec 30, R44), and only events of this instance,
of requests already made, at indices below `len` (spec 20, R27, R32). -/
def Reader.Recorded (id : Nat) (r : Reader) : Prop :=
  r.transactions.length = r.requestSeq ∧
    ∀ a ∈ r.accesses, a.reader = id ∧ a.requestSeq < r.requestSeq ∧ a.index < r.len

/-- Every live reader's record is of that form. -/
def State.Recorded (s : State) : Prop :=
  ∀ id r, s.slot id = some (.live r) → r.Recorded id

/-- The host keeps the duties of spec 70, R84, with this action in this state. -/
def HostAction.Dutiful (a : HostAction) (s : State) : Prop :=
  match a with
  | .construct id storage ws =>
    id < s.params.nReaders ∧ ws.length ≤ s.params.maxWords ∧
      ∀ id' r, id' ≠ id → s.slot id' = some (.live r) → r.storage = storage → r.words = ws
  | .request id count word => (∃ r, s.slot id = some (.live r)) ∧ presents count word = true
  | .observe _ => True
  | .destroy id => ∃ r, s.slot id = some (.live r)
  | .writeStorage storage _ _ => ∀ id r, s.slot id = some (.live r) → r.storage ≠ storage
  | .overlappingRequest _ _ => False

/-- The part of a reader that is the block's own state, `(words, len, word_index, bits_consumed)` (spec 10, R14). -/
structure BlockState where
  words : Memory
  len : Nat
  wordIndex : Nat
  bitsConsumed : BitOffset
  deriving DecidableEq, Repr

def Reader.block (r : Reader) : BlockState :=
  { words := r.words, len := r.len, wordIndex := r.wordIndex, bitsConsumed := r.bitsConsumed }

/-- The cursor pair (spec 00, R13). -/
def Reader.cursor (r : Reader) : Nat × BitOffset :=
  (r.wordIndex, r.bitsConsumed)

/-- The last response a reader gave. -/
def Reader.lastResponse (r : Reader) : Option Response :=
  r.transactions.getLast?.map Transaction.response

/-- The request port in use is that of a live reader in a state of spec 10, R18: where a request has a meaning. -/
def State.Addresses (s : State) (r : Reader) : Prop :=
  s.slot s.target = some (.live r) ∧ r.Ok

/-- Everything of the machine but one instance is the same in two states: the parameters, the request port in use, the
host's further actions, and every other instance with its storage, cursor and record. -/
def State.AgreeExcept (id : Nat) (s t : State) : Prop :=
  t.params = s.params ∧ t.target = s.target ∧ t.pending = s.pending ∧ ∀ j, j ≠ id → t.slot j = s.slot j

/-- The events of a successful read of `n` bits by the reader `r` of instance `id`: the current word, then the next
word exactly when the read goes past the current one (spec 20, R31). -/
def Reader.readEvents (r : Reader) (id n : Nat) : List Access :=
  { reader := id, requestSeq := r.requestSeq, index := r.wordIndex } ::
    if 64 < r.bitsConsumed.toNat + n then
      [{ reader := id, requestSeq := r.requestSeq, index := r.wordIndex + 1 }]
    else []

/-- Several requests on the port in use, in order. -/
def execAll : List Instr → State → Host.Outcome State Fault Refusal
  | [], s => .next s
  | i :: rest, s =>
    match exec i s with
    | .next t => execAll rest t
    | .fault e => .fault e
    | .refused e => .refused e

end Sys2Proof.Machine
end

