-- ==== Sys2Proof/Certificates/Slice0/Obligations.lean ====
section
/-! DEFINITION. The statements about the machine, each from numbered rules of the spec. -/

open Sys2Proof Sys2Proof.Machine

/-! ### Encoding -/

/-- Spec 30, R41 and R48: request words written out from the format `REQ`, among them `READ 64` as `0b1000000` and
`READ 0` as `0b0000000`, and the encoding of program P3 of spec 95. A byte above `0x7F` is no request word
(notes/assumptions/14, the model's choice). -/
def Obligations.WrittenOutWordsDecode : Prop :=
  decode 0b1000000#7 = .read 64 ∧ decode 0b0000000#7 = .read 0 ∧ decode 0b0100001#7 = .read 33 ∧
    decode 0b1000001#7 = .read 65 ∧ decode 0b1111111#7 = .read 127 ∧
    decodeTableWord 7 0x40 = some (.read 64) ∧
    decodeProgram [0x3C#8, 0x08#8, 0x00#8, 0x04#8, 0x01#8, 0x41#8] =
      .ok [.read 60, .read 8, .read 0, .read 4, .read 1, .read 65] ∧
    decodeProgram [0x04#8, 0x80#8] = .error (.notARequestWord 0x80#8)

/-- Over whole programs (spec 30, R40 to R42; 95, section 3, for the bytes): what is written out of well-formed requests is
read back as those requests, and bytes that are read as requests are exactly what those requests are written as. The
second clause rests on the model's choice that a byte with bit 7 set is refused (notes/assumptions/14). -/
def Obligations.ProgramsReadBack : Prop :=
  (∀ is : List Instr, (∀ i ∈ is, i.WellFormed) → decodeProgram (encodeProgram is) = .ok is) ∧
    ∀ (bytes : List Byte) (is : List Instr), decodeProgram bytes = .ok is →
      encodeProgram is = bytes ∧ ∀ i ∈ is, i.WellFormed

/-- Spec 30, R43: a count of 128 or more is never reduced. The word a host may present for it, the encoder's `127`
among them, completes with `InvalidBitCount`. A word of a valid count presented for it breaks a duty of the host (70,
R84; 92, D13) and is refused by the model's name for that breach (notes/assumptions/9, the model's form). -/
def Obligations.LargeCountsAreNeverReduced : Prop :=
  ∀ (m : Nat), 128 ≤ m →
    presents m (presentCount m) = true ∧
    (∀ (w : RequestWord) (s : State) (r : Reader), presents m w = true → s.Addresses r →
      ∃ t r', perform (.request s.target m w) s = .next t ∧ t.slot s.target = some (.live r') ∧
        r'.cursor = r.cursor ∧ r'.lastResponse = some { status := .invalidBitCount, data := 0#64 }) ∧
    ∀ (w : RequestWord) (id : Nat) (s : State), 1 ≤ w.toNat → w.toNat ≤ 64 →
      perform (.request id m w) s = .refused .countMisrepresented

/-- Spec 30, R48: a line written for a request with a count the word holds is read as that request, whatever comment
follows a `;`; and no line is read as a request that no word holds (R43). White space between tokens is the model's
choice (notes/assumptions/17). -/
def Obligations.LinesReadBack : Prop :=
  (∀ (n : Nat) (comment : List Char), n < 128 →
    parseLine (printInstr (.read n) ++ ' ' :: ';' :: comment) = .ok (.read (.read n))) ∧
  ∀ (line : List Char) (i : Instr), parseLine line = .ok (.read i) → i.WellFormed

/-! ### Construction, the launch state, and the invariant -/

/-- The launch state of the model meets every invariant: spec 10, R18 (with R15 and the table's canonical form), and
the two recorded ones. That its one reader is over an empty storage is the model's choice (notes/assumptions/1). -/
def Obligations.ResetMeetsInvariants : Prop :=
  State.reset.Inv ∧ State.reset.InOrder ∧ State.reset.Recorded

/-- Spec 70, R75 and R77: the launch state holds a reader just constructed; nothing was read, nothing answered, and the
status outputs show `(0, 0, 0)`. Which `ws` it holds is the model's choice (notes/assumptions/1). -/
def Obligations.ResetIsAConstructedReader : Prop :=
  State.reset.slot 0 = some (.live (Reader.construct 0 [])) ∧ State.reset.pending = [] ∧
    (∀ id, id ≠ 0 → State.reset.slot id = none) ∧
    ∃ o, State.reset.outputs 0 = some o ∧ o.len.toNat = 0 ∧ o.wordIndex.toNat = 0 ∧ o.bitsConsumed = 0#6

/-- Spec 10, R18, items 1 and 2 (with R15, R22, and 20, R36): they hold after every step from a state in which they hold,
whatever the host does. -/
def Obligations.EveryStepKeepsTheInvariant : Prop :=
  ∀ s t : State, s.Inv → step s = .next t → t.Inv

/-- Spec 70, R73 to R75: construction succeeds for every id and every `ws` within the bounds, over a storage no other
reader contradicts, places the cursor at `(0, 0)`, leaves no event and no response, and the outputs show
`(length(ws), 0, 0)`. Nothing is assumed of what the instance was before (R76). Whether two
readers are over one storage is told by the model's label (notes/assumptions/8). A `ws` of more than `MAX_WORDS` words
is refused. -/
def Obligations.ConstructionPlacesTheCursorAtTheStart : Prop :=
  ∀ (s : State) (id storage : Nat) (ws : List Word), id < s.params.nReaders →
    (s.params.maxWords < ws.length → perform (.construct id storage ws) s = .refused .tooManyWords) ∧
    (ws.length ≤ s.params.maxWords →
      (∀ k r, k ≠ id → (k, Slot.live r) ∈ s.readers → r.storage = storage → r.words = ws) →
      ∃ t r o, perform (.construct id storage ws) s = .next t ∧ s.AgreeExcept id t ∧
        t.slot id = some (.live r) ∧
        r.words = ws ∧ r.len = ws.length ∧ r.wordIndex = 0 ∧ r.bitsConsumed = 0#6 ∧ r.accesses = [] ∧ r.transactions = [] ∧
        r.cursorState = (if ws = [] then .exhausted else .freshWord) ∧
        t.outputs id = some o ∧ o.len.toNat = ws.length ∧ o.wordIndex.toNat = 0 ∧ o.bitsConsumed = 0#6)

/-- Spec 70, R77, and 93, items 10 and 7 (spec 10, R25): a request to an instance never constructed, to a destroyed one,
or to one in a state that breaks R18 has no meaning. That `len` is the number of words is part of the third by
inference (notes/assumptions/10). -/
def Obligations.RequestsNeedAMeaningfulReader : Prop :=
  ∀ (i : Instr) (s : State),
    (s.slot s.target = none → exec i s = .refused .notConstructed) ∧
    (s.slot s.target = some .destroyed → exec i s = .refused .destroyedReader) ∧
    ∀ r, s.slot s.target = some (.live r) → ¬ r.Ok → exec i s = .refused .brokenInvariant

/-- Spec 70, R76 and R84: destruction ends a live reader, releases its storage, and has no other effect. A destroyed
instance refuses every request and stays destroyed over every step that takes no construction of it; a construction
begins a new lifetime, which keeps nothing of the old one. -/
def Obligations.DestructionEndsALifetime : Prop :=
  (∀ (s : State) (id : Nat) (r : Reader), s.slot id = some (.live r) →
    ∃ t, perform (.destroy id) s = .next t ∧ t.slot id = some .destroyed ∧ s.AgreeExcept id t) ∧
  ∀ (s : State) (id : Nat), s.slot id = some .destroyed →
    (∀ count word, presents count word = true →
      perform (.request id count word) s = .refused .destroyedReader) ∧
    (∀ t, step s = .next t → (∀ storage ws rest, s.pending ≠ .construct id storage ws :: rest) →
      t.slot id = some .destroyed) ∧
    ∀ storage ws u, perform (.construct id storage ws) s = .next u →
      u.slot id = some (.live (Reader.construct storage ws))

/-! ### The read operation -/

/-- Spec 60, R66: a request whose count is invalid, or valid but of more bits than remain, completes; it writes no
register, reads no word, and responds with its code and zero data. -/
def Obligations.ErrorsHaveNoSideEffects : Prop :=
  ∀ (n : Nat) (s : State) (r : Reader) (st : Status), s.Addresses r →
    ((n = 0 ∨ 64 < n) ∧ st = .invalidBitCount) ∨ (1 ≤ n ∧ n ≤ 64 ∧ r.remaining < n ∧ st = .endOfStream) →
    ∃ t r', exec (.read n) s = .next t ∧ s.AgreeExcept s.target t ∧ t.slot s.target = some (.live r') ∧
      r'.block = r.block ∧ r'.storage = r.storage ∧ r'.accesses = r.accesses ∧
      r'.transactions = r.transactions ++ [{ count := n, response := { status := st, data := 0#64 } }]

/-- Spec 40, R53 with R54: an available read completes; its data is the declarative sum of the stream's bits, its cursor
the quotient and remainder of the new position (R52), its accesses those of 20, R31, and nothing else changes. -/
def Obligations.ReadReturnsTheStream : Prop :=
  ∀ (n : Nat) (s : State) (r : Reader), s.Addresses r → 1 ≤ n → n ≤ 64 → r.position + n ≤ r.len * 64 →
    ∃ t r', exec (.read n) s = .next t ∧ s.AgreeExcept s.target t ∧ t.slot s.target = some (.live r') ∧
      r'.words = r.words ∧ r'.len = r.len ∧ r'.storage = r.storage ∧
      r'.wordIndex = (r.position + n) / 64 ∧ r'.bitsConsumed.toNat = (r.position + n) % 64 ∧
      r'.accesses = r.accesses ++ r.readEvents s.target n ∧
      ∃ d, r'.transactions = r.transactions ++ [{ count := n, response := { status := .ok, data := d } }] ∧
        d = streamSum r.words r.position n ∧
        ∀ j, d.getLsbD j = true ↔ j < n ∧ streamBit r.words (r.position + j) = some true

/-- Spec 60, R62 and R63: every request is answered, whatever the cursor and the length; which of the three outcomes it
has, each exactly when its rule says; and an error leaves the cursor. A request that meets both causes is answered with
`InvalidBitCount` (R64). -/
def Obligations.OutcomeOfARead : Prop :=
  ∀ (n : Nat) (s : State) (r : Reader), s.Addresses r →
    ∃ t r' x, exec (.read n) s = .next t ∧ t.slot s.target = some (.live r') ∧ r'.lastResponse = some x ∧
      (x.status = .invalidBitCount ↔ n = 0 ∨ 64 < n) ∧
      (x.status = .endOfStream ↔
        1 ≤ n ∧ n ≤ 64 ∧ r.len * 64 < r.wordIndex * 64 + r.bitsConsumed.toNat + n) ∧
      (x.status = .endOfStream ↔ 1 ≤ n ∧ n ≤ 64 ∧ r.remaining < n) ∧
      (x.status ≠ .ok → r'.cursor = r.cursor)

/-- The frame of `READ`, in every form: of the machine only the instance addressed changes; of that, the storage label,
every word of the storage and its length are as before, what was recorded stays recorded, and one response is added
(spec 20, R33; 10, R15; 30, R44; 60, R71). The cursor may change. That a failed request counts in `request_seq` is the
model's inference (notes/assumptions/4). -/
def Obligations.ReadFrame : Prop :=
  ∀ (n : Nat) (s t : State), exec (.read n) s = .next t →
    s.AgreeExcept s.target t ∧
    ∃ r r', s.slot s.target = some (.live r) ∧ t.slot s.target = some (.live r') ∧
      r'.storage = r.storage ∧ r'.len = r.len ∧ r'.words.length = r.words.length ∧
      (∀ a : Nat, r'.words[a]? = r.words[a]?) ∧
      r'.requestSeq = r.requestSeq + 1 ∧ r.accesses <+: r'.accesses ∧
      ∃ x, x.count = n ∧ r'.transactions = r.transactions ++ [x]

/-- Spec 30, R44 and R45: every request gives exactly one response. Its data is the result of the read on a success and
zero on an error; its code says the outcome: `00` the cursor advanced by the count, `01` an invalid count, `10` too few
bits left, both with the cursor unchanged; `11` is never produced. -/
def Obligations.EveryRequestGivesOneResponse : Prop :=
  Status.ok.code = 0b00#2 ∧ Status.invalidBitCount.code = 0b01#2 ∧ Status.endOfStream.code = 0b10#2 ∧
  ∀ (n : Nat) (s : State) (r : Reader), s.Addresses r →
    ∃ t r' x, exec (.read n) s = .next t ∧ t.slot s.target = some (.live r') ∧
      r'.transactions = r.transactions ++ [{ count := n, response := x }] ∧
      (x.status = .ok → x.data = streamSum r.words r.position n) ∧ (x.status ≠ .ok → x.data = 0#64) ∧
      (x.status.code = 0b00#2 → r'.position = r.position + n) ∧
      (x.status.code = 0b01#2 ↔ n = 0 ∨ 64 < n) ∧
      (x.status.code = 0b10#2 ↔ 1 ≤ n ∧ n ≤ 64 ∧ r.remaining < n) ∧
      (x.status.code ≠ 0b00#2 → r'.cursor = r.cursor) ∧ x.status.code ≠ 0b11#2

/-- Spec 20, R31: the word reads of one request, in their order: none on an error; on a success `words[wi]` once, then
`words[wi + 1]` once exactly when `take_next > 0`; no other index. -/
def Obligations.AccessesOfARead : Prop :=
  ∀ (n : Nat) (s t : State) (r r' : Reader), exec (.read n) s = .next t →
    s.slot s.target = some (.live r) → t.slot s.target = some (.live r') →
    ((∀ d, r'.lastResponse ≠ some { status := .ok, data := d }) → r'.accesses = r.accesses) ∧
    ((∃ d, r'.lastResponse = some { status := .ok, data := d }) →
      (takeNext r.bitsConsumed n = 0 →
        r'.accesses = r.accesses ++
          [{ reader := s.target, requestSeq := r.requestSeq, index := r.wordIndex }]) ∧
      (0 < takeNext r.bitsConsumed n →
        r'.accesses = r.accesses ++
          [{ reader := s.target, requestSeq := r.requestSeq, index := r.wordIndex },
           { reader := s.target, requestSeq := r.requestSeq, index := r.wordIndex + 1 }]))

/-- Spec 10, R18, item 3, and 40, R57, law 1: a successful read adds exactly its count to `T`, a failed one nothing. -/
def Obligations.ReadAdvancesByItsCount : Prop :=
  ∀ (n : Nat) (s t : State) (r r' : Reader), exec (.read n) s = .next t →
    s.slot s.target = some (.live r) → t.slot s.target = some (.live r') →
    ((∃ d, r'.lastResponse = some { status := .ok, data := d }) ∧ r'.position = r.position + n) ∨
      ((∀ d, r'.lastResponse ≠ some { status := .ok, data := d }) ∧ r'.cursor = r.cursor)

/-- Spec 40, R57, law 2: successful reads of positive counts that add up to at most 64, one after another, together give
what one read of the sum gives, each result shifted up by the counts before it, and leave the same cursor. -/
def Obligations.ReadsConcatenate : Prop :=
  ∀ (ns : List Nat) (s : State) (r : Reader), s.Addresses r → ns ≠ [] → (∀ n ∈ ns, 1 ≤ n) → ns.sum ≤ 64 →
    r.position + ns.sum ≤ r.len * 64 →
    ∃ t u rt ru ds d, execAll (ns.map Instr.read) s = .next t ∧ exec (.read ns.sum) s = .next u ∧
      t.slot s.target = some (.live rt) ∧ u.slot s.target = some (.live ru) ∧ rt.cursor = ru.cursor ∧
      ds.length = ns.length ∧
      rt.transactions = r.transactions ++
        (ns.zip ds).map (fun x => { count := x.1, response := { status := .ok, data := x.2 } }) ∧
      ru.transactions = r.transactions ++ [{ count := ns.sum, response := { status := .ok, data := d } }] ∧
      orShifted 0 (ns.zip ds) = d

/-- Spec 40, R57, law 3 (90, C7): the data of a successful read of fewer than 64 bits is right-aligned. -/
def Obligations.ResultsAreRightAligned : Prop :=
  ∀ (n : Nat) (s t : State) (r' : Reader) (d : Word), exec (.read n) s = .next t →
    t.slot s.target = some (.live r') → r'.lastResponse = some { status := .ok, data := d } → n < 64 →
    d >>> n = 0#64

/-- Spec 40, R57, law 4: once `T = 64 * len`, every valid read completes with `EndOfStream` and leaves the reader so. -/
def Obligations.ExhaustedReadersStayExhausted : Prop :=
  ∀ (n : Nat) (s : State) (r : Reader), s.Addresses r → r.position = 64 * r.len → 1 ≤ n → n ≤ 64 →
    r.cursorState = .exhausted ∧
    ∃ t r', exec (.read n) s = .next t ∧ t.slot s.target = some (.live r') ∧
      r'.lastResponse = some { status := .endOfStream, data := 0#64 } ∧ r'.cursorState = .exhausted ∧
      r'.position = 64 * r'.len

/-- Spec 40, R57, law 5, and 20, R31: in the last word, a read that ends in it or before its end succeeds and reads only
that word; index `len` is not touched. -/
def Obligations.TheWordBehindTheLastIsNotTouched : Prop :=
  ∀ (n : Nat) (s : State) (r : Reader), s.Addresses r → r.wordIndex + 1 = r.len → 1 ≤ n →
    n ≤ leftover r.bitsConsumed →
    takeNext r.bitsConsumed n = 0 ∧
    ∃ t r' d, exec (.read n) s = .next t ∧ t.slot s.target = some (.live r') ∧
      r'.lastResponse = some { status := .ok, data := d } ∧
      r'.accesses = r.accesses ++ [{ reader := s.target, requestSeq := r.requestSeq, index := r.wordIndex }]

/-- Spec 10, R21: the cursor is in exactly one of the three states, and how an available read moves it. -/
def Obligations.CursorStateMoves : Prop :=
  (∀ r : Reader, r.Ok →
    (r.cursorState = .freshWord ↔ r.bitsConsumed = 0#6 ∧ r.wordIndex < r.len) ∧
    (r.cursorState = .withinWord ↔ 0 < r.bitsConsumed.toNat) ∧
    (r.cursorState = .withinWord → r.wordIndex < r.len) ∧
    (r.cursorState = .exhausted ↔ r.wordIndex = r.len) ∧
    (r.cursorState = .exhausted → r.bitsConsumed = 0#6)) ∧
  ∀ (n : Nat) (s : State) (r : Reader), s.Addresses r → 1 ≤ n → n ≤ 64 →
    (r.cursorState = .exhausted → ∃ t r', exec (.read n) s = .next t ∧ t.slot s.target = some (.live r') ∧
      r'.lastResponse = some { status := .endOfStream, data := 0#64 }) ∧
    (r.cursorState ≠ .exhausted → n ≤ r.remaining →
      ∃ t r', exec (.read n) s = .next t ∧ t.slot s.target = some (.live r') ∧
        (n < leftover r.bitsConsumed → r'.cursorState = .withinWord ∧ r'.wordIndex = r.wordIndex) ∧
        (n = leftover r.bitsConsumed → r'.wordIndex = r.wordIndex + 1 ∧
          r'.cursorState = if r.wordIndex + 1 = r.len then .exhausted else .freshWord) ∧
        (leftover r.bitsConsumed < n → r'.cursorState = .withinWord ∧ r'.wordIndex = r.wordIndex + 1 ∧
          r'.bitsConsumed.toNat = n - leftover r.bitsConsumed))

/-- Spec 40, R58: the edge cases of a 64-bit read. From the start of a word it returns the whole word; from inside a word
it needs the next word, draws the low bits of the result from the current word and the high ones from the next, and
fails where there is no next word. -/
def Obligations.SixtyFourBitReads : Prop :=
  ∀ (s : State) (r : Reader) (w0 : Word), s.Addresses r → r.words[r.wordIndex]? = some w0 →
    ∃ t r', exec (.read 64) s = .next t ∧ t.slot s.target = some (.live r') ∧
      (r.bitsConsumed = 0#6 → r'.lastResponse = some { status := .ok, data := w0 } ∧
        r'.cursor = (r.wordIndex + 1, 0#6)) ∧
      (r.bitsConsumed ≠ 0#6 → r.words[r.wordIndex + 1]? = none →
        r'.lastResponse = some { status := .endOfStream, data := 0#64 } ∧ r'.cursor = r.cursor) ∧
      (r.bitsConsumed ≠ 0#6 → ∀ w1, r.words[r.wordIndex + 1]? = some w1 →
        r'.lastResponse = some
          { status := .ok, data := (w0 >>> r.bitsConsumed.toNat) ||| (w1 <<< (64 - r.bitsConsumed.toNat)) } ∧
        r'.cursor = (r.wordIndex + 1, r.bitsConsumed))

/-- Spec 60, R65 and R67: an error is recoverable and nothing is kept of it: the next request is answered as if the failed
one had not been made, from the same cursor. -/
def Obligations.ErrorsDoNotAffectLaterRequests : Prop :=
  ∀ (n m : Nat) (s t : State) (rt : Reader), exec (.read n) s = .next t →
    t.slot s.target = some (.live rt) → (∀ d, rt.lastResponse ≠ some { status := .ok, data := d }) →
    ∃ u v ru rv, exec (.read m) t = .next u ∧ exec (.read m) s = .next v ∧
      u.slot s.target = some (.live ru) ∧ v.slot s.target = some (.live rv) ∧
      ru.block = rv.block ∧ ru.lastResponse = rv.lastResponse

/-! ### The component functions -/

/-- Spec 40, R49: `mask(k)` is defined for `k ≤ 64` and has exactly the bits below `k`; `mask(64)` is all ones. -/
def Obligations.MaskHasTheLowBits : Prop :=
  (∀ k : Nat, k ≤ 64 → ∃ m, mask k = some m ∧ ∀ j, j < 64 → (m.getLsbD j = true ↔ j < k)) ∧
    mask 64 = some 0xFFFFFFFFFFFFFFFF#64 ∧ mask 0 = some 0#64 ∧
    ∀ k : Nat, k < 64 → mask k = some ((1#64 <<< k) - 1#64)

/-- Spec 40, R50: the definitions of a split and the ranges of its numbers; and what they count, by 20, R28: result bit `j`
comes from the current word for `j < take_cur` and from the next word for the other bits. -/
def Obligations.SplitRanges : Prop :=
  ∀ (wi : Nat) (c : BitOffset) (n : Nat), 1 ≤ n → n ≤ 64 →
    leftover c = 64 - c.toNat ∧ takeCur c n = min (leftover c) n ∧ takeNext c n = n - takeCur c n ∧
    1 ≤ leftover c ∧ leftover c ≤ 64 ∧ 1 ≤ takeCur c n ∧ takeCur c n ≤ 64 ∧ takeNext c n ≤ 63 ∧
    (takeCur c n = 64 → c = 0#6 ∧ n = 64) ∧ (0 < takeNext c n ↔ 64 < c.toNat + n) ∧
    (0 < takeNext c n → takeCur c n = leftover c ∧ 1 ≤ c.toNat ∧ takeCur c n ≤ 63 ∧
      1 ≤ takeNext c n ∧ takeNext c n ≤ c.toNat) ∧
    ∀ j, j < n → (wi * 64 + c.toNat + j) / 64 = if j < takeCur c n then wi else wi + 1

/-- Spec 40, R51: the extractor combines its two parts, and does not depend on the next word when `take_next = 0`. -/
def Obligations.ExtractorCombinesItsParts : Prop :=
  ∀ (w0 : Word) (c : BitOffset) (n : Nat), 1 ≤ n → n ≤ 64 →
    ∃ m0, mask (takeCur c n) = some m0 ∧
      (takeNext c n = 0 → ∀ w1 : Option Word,
        wordBoundaryStraddleExtractor w0 w1 c n = some ((w0 >>> c.toNat) &&& m0)) ∧
      (0 < takeNext c n → ∃ m1, mask (takeNext c n) = some m1 ∧ ∀ w1 : Word,
        wordBoundaryStraddleExtractor w0 (some w1) c n =
          some (((w0 >>> c.toNat) &&& m0) ||| ((w1 &&& m1) <<< takeCur c n)))

/-- Spec 40, R54: extractor and declarative sum agree on every input the `READ` rule gives the extractor. -/
def Obligations.ExtractorMeetsTheDeclarativeForm : Prop :=
  ∀ (words : Memory) (wi : Nat) (w0 : Word) (c : BitOffset) (n : Nat), 1 ≤ n → n ≤ 64 →
    words[wi]? = some w0 →
    (c.toNat + n ≤ 64 →
      wordBoundaryStraddleExtractor w0 none c n = some (streamSum words (wi * 64 + c.toNat) n)) ∧
    ∀ w1, 64 < c.toNat + n → words[wi + 1]? = some w1 →
      wordBoundaryStraddleExtractor w0 (some w1) c n = some (streamSum words (wi * 64 + c.toNat) n)

/-- Spec 40, R55, and 70, R80: no shift reaches 64. The amounts of the three shifts of a read lie in their ranges: in
`mask`, whose argument is 64, the constant's case, or at most 63; in part 1; and in part 2. A shift by 64 or more has no
value in the model (93, item 1), and no step meets one. -/
def Obligations.NoShiftByTheWidth : Prop :=
  (∀ (c : BitOffset) (n : Nat), 1 ≤ n → n ≤ 64 →
    (takeCur c n ≠ 64 → takeCur c n ≤ 63) ∧ takeNext c n ≤ 63 ∧
    c.toNat ≤ 63 ∧ (0 < takeNext c n → 1 ≤ takeCur c n ∧ takeCur c n ≤ 63)) ∧
  (mask 64 = some 0xFFFFFFFFFFFFFFFF#64 ∧ ∀ k : Nat, k ≠ 64 → mask k = (shiftLeft 1#64 k).map (· - 1#64)) ∧
  (∀ (w : Word) (a : Nat), (shiftRight w a = none ↔ 64 ≤ a) ∧ (shiftLeft w a = none ↔ 64 ≤ a)) ∧
  ∀ s : State, step s ≠ .refused .undefinedOperation

/-- Spec 40, R56: the parts of a result are within their bounds and disjoint, so that "or" is "+", and truncation drops
nothing. -/
def Obligations.PartsOfAResultAreDisjoint : Prop :=
  ∀ (w0 w1 : Word) (c : BitOffset) (n : Nat), 1 ≤ n → n ≤ 64 →
    ∃ a b, part1 w0 c n = some a ∧ part2 (some w1) c n = some b ∧
      a.toNat < 2 ^ takeCur c n ∧ 2 ^ takeCur c n ∣ b.toNat ∧ b.toNat < 2 ^ n ∧
      a &&& b = 0#64 ∧ (a ||| b).toNat = a.toNat + b.toNat ∧
      (0 < takeNext c n → b.toNat = w1.toNat % 2 ^ takeNext c n * 2 ^ takeCur c n)

/-- Spec 40, R52: the collapsed form of the cursor advance is the source's three-case form and the divmod form, and the
new offset is never 64. -/
def Obligations.CursorAdvanceForms : Prop :=
  ∀ (wi : Nat) (c : BitOffset) (n : Nat), 1 ≤ n → n ≤ 64 →
    (c.toNat + n < 64 → (advance wi c n).1 = wi ∧ (advance wi c n).2.toNat = c.toNat + n) ∧
    (64 ≤ c.toNat + n → (advance wi c n).1 = wi + 1 ∧ (advance wi c n).2.toNat = c.toNat + n - 64) ∧
    (takeCur c n < leftover c → (advance wi c n).1 = wi ∧ (advance wi c n).2.toNat = c.toNat + n) ∧
    (takeCur c n = leftover c → takeNext c n = 0 → advance wi c n = (wi + 1, 0#6)) ∧
    (0 < takeNext c n → (advance wi c n).1 = wi + 1 ∧ (advance wi c n).2.toNat = takeNext c n) ∧
    (advance wi c n).1 = (wi * 64 + c.toNat + n) / 64 ∧
    (advance wi c n).2.toNat = (wi * 64 + c.toNat + n) % 64 ∧ (advance wi c n).2.toNat ≠ 64

/-- Spec 70, R81: adders of `IDX_W + 7` bits make the exact availability test, because its left side is at most
`len * 64 + 127`. -/
def Obligations.AvailabilityInIndexWidth : Prop :=
  ∀ (s : State) (id n : Nat) (r : Reader), s.Inv → s.slot id = some (.live r) → n < 128 →
    r.position + n ≤ r.len * 64 + 127 ∧
    (exhaustedInWidth (idxW s.params.maxWords + 7) r n = true ↔ r.len * 64 < r.position + n)

/-- Spec 00, R9: `IDX_W` is the least width of at least one bit that holds `MAX_WORDS`. -/
def Obligations.IndexWidthIsLeast : Prop :=
  ∀ m : Nat, 1 ≤ idxW m ∧ m < 2 ^ idxW m ∧ ∀ w : Nat, 1 ≤ w → m < 2 ^ w → idxW m ≤ w

/-- Spec 30, R46: each status output equals the register of the same name, in every state that meets the invariant, so
also in the state a request's step left; reading them changes nothing, which for an instance that is not live is the
model's choice (notes/assumptions/15). -/
def Obligations.OutputsShowTheRegisters : Prop :=
  (∀ (s : State) (id : Nat) (r : Reader), s.Inv → s.slot id = some (.live r) →
    ∃ o, s.outputs id = some o ∧ o.len.toNat = r.len ∧ o.wordIndex.toNat = r.wordIndex ∧
      o.bitsConsumed = r.bitsConsumed) ∧
  ∀ (s : State) (id : Nat), perform (.observe id) s = .next s

/-! ### The machine's step, the host, and several readers -/

/-- A step runs the decoded request: the host's next action is taken off the list, the instance it addresses becomes the
port in use, and `exec` of the decoded word decides the outcome (spec 30, R39, R41). A request placed by
`withFetchWord` is run by the very next step. Without an action of the host the machine holds its state (60, R72). That the host's actions are a
list, and `withFetchWord` puts a request in front of it, is the model's form (notes/assumptions/6, 7). -/
def Obligations.StepRunsTheDecodedRequest : Prop :=
  (∀ (s : State) (id count : Nat) (word : RequestWord) (rest : List HostAction),
    s.pending = .request id count word :: rest → presents count word = true →
    step s = exec (decode word) { s with pending := rest, target := id }) ∧
  (∀ (s : State) (nbits w : Nat) (i : Instr), decodeTableWord nbits w = some i →
    step (s.withFetchWord nbits w) = exec i s) ∧
  ∀ s : State, s.pending = [] → step s = .next s

/-- Spec 20, R32: no step, in any state, reads a word at an index that does not exist, which in the model would be a fault
(notes/assumptions/11). -/
def Obligations.NoStepFaults : Prop :=
  ∀ (s : State) (e : Fault), step s ≠ .fault e

/-- Spec 20, R27 and R32, and 30, R44: in every state a step leads to, each recorded access is one of this instance, made
by a request already answered, at an index below `len`, and there is one response for each request. That the numbers
of requests start at 0 and count failed ones is the model's (notes/assumptions/4). -/
def Obligations.AccessesStayInsideTheStorage : Prop :=
  ∀ s t : State, s.Inv → s.Recorded → step s = .next t → t.Recorded

/-- Spec 20, R35: the bits returned since construction are the stream from bit 0 on, each exactly once and in order; every
step keeps it. -/
def Obligations.EveryBitIsReturnedOnceAndInOrder : Prop :=
  ∀ s t : State, s.Inv → s.InOrder → step s = .next t → t.InOrder

/-- Spec 70, R83 and R84: where the host keeps its duties a step always completes and uses up one action; where it breaks
one the step is refused, a storage write (20, R38), an overlapping request (20, R35) and a truncated count (30, R43)
each by the name of the breach. The form of the breaches is the model's (notes/assumptions/9). That destroying an
instance which is not live is a breach, and that observing one and writing a storage no live reader is over complete,
are the model's choices: R84 gives no such duty (notes/assumptions/15). -/
def Obligations.DutifulActionsComplete : Prop :=
  ∀ (s : State) (a : HostAction) (rest : List HostAction), s.Inv → s.pending = a :: rest →
    (a.Dutiful s → ∃ t, step s = .next t ∧ t.pending = rest) ∧
    (¬ a.Dutiful s → ∃ e, step s = .refused e ∧
      (∀ id word, a = .overlappingRequest id word → e = .requestOutstanding) ∧
      (∀ storage index value, a = .writeStorage storage index value → e = .storageModified) ∧
      ∀ id count word, a = .request id count word → presents count word = false → e = .countMisrepresented)

/-- Spec 20, R38, and 93, item 8: a write to a storage while a reader over it lives is refused, and so is a construction
that passes other words for it, by the model's label of a storage (notes/assumptions/8). -/
def Obligations.StorageWritesAreRefused : Prop :=
  ∀ (s : State) (id : Nat) (r : Reader), s.slot id = some (.live r) →
    (∀ index value, perform (.writeStorage r.storage index value) s = .refused .storageModified) ∧
    ∀ (id' : Nat) (ws : List Word), id' ≠ id → id' < s.params.nReaders → ws.length ≤ s.params.maxWords →
      ws ≠ r.words → perform (.construct id' r.storage ws) s = .refused .storageModified

/-- Spec 10, R20: over a step in which an instance lives before and after, a construction of it writes `(0, 0)` to its
cursor, a successful read of it moves its cursor by the count, and nothing else, a failed read among it, changes it. -/
def Obligations.OnlyConstructionAndReadsMoveTheCursor : Prop :=
  ∀ (s t : State) (id : Nat) (r r' : Reader), step s = .next t → s.slot id = some (.live r) →
    t.slot id = some (.live r') →
    (∃ storage ws rest, s.pending = .construct id storage ws :: rest ∧ r'.cursor = (0, 0#6)) ∨
    (∃ count word rest d, s.pending = .request id count word :: rest ∧
      r'.lastResponse = some { status := .ok, data := d } ∧ r'.position = r.position + word.toNat) ∨
    ((∀ storage ws rest, s.pending ≠ .construct id storage ws :: rest) ∧
      (∀ count word rest, s.pending = .request id count word :: rest →
        ∀ d, r'.lastResponse ≠ some { status := .ok, data := d }) ∧
      r'.cursor = r.cursor)

/-- Spec 10, R15, and 20, R33: the words and the length of a reader never change during its lifetime; only a construction
of that very instance gives it others. -/
def Obligations.StorageIsImmutableForALifetime : Prop :=
  ∀ (s t : State) (id : Nat) (r r' : Reader), step s = .next t → s.slot id = some (.live r) →
    t.slot id = some (.live r') →
    (∀ storage ws rest, s.pending ≠ .construct id storage ws :: rest) →
    r'.len = r.len ∧ r'.storage = r.storage ∧ ∀ a : Nat, r'.words[a]? = r.words[a]?

/-- The parameters are fixed for a machine: no step changes them (spec 00, R9; notes/assumptions/2). -/
def Obligations.ParametersAreFixed : Prop :=
  ∀ s t : State, step s = .next t → t.params = s.params

/-- Spec 20, R36, and 60, R71: every interleaving of requests to several readers gives each reader the responses, the
accesses and the final cursor it reaches running alone, whether they share a storage or not. Each reader holds its
own copy of the words (notes/assumptions/8). -/
def Obligations.ReadersAreIndependent : Prop :=
  ∀ (reqs : List (Nat × RequestWord)) (s : State) (id : Nat), s.Inv →
    (∀ q ∈ reqs, ∃ r, s.slot q.1 = some (.live r)) →
    ∃ t u, performAll (reqs.map fun q => .request q.1 q.2.toNat q.2) s = .next t ∧
      performAll (readRequests id ((reqs.filter fun q => q.1 = id).map Prod.snd)) s = .next u ∧
      t.slot id = u.slot id

/-- Spec 10, R14, and 20, R27: a request's response and the block state it leaves depend on `words`, `len`, `word_index`
and `bits_consumed` only: not on what is recorded, not on the other instances, and not on the parameters. -/
def Obligations.OnlyTheBlockStateMatters : Prop :=
  ∀ (n : Nat) (s s' : State) (r r' : Reader), s.Addresses r → s'.Addresses r' → r.block = r'.block →
    ∃ t t' q q', exec (.read n) s = .next t ∧ exec (.read n) s' = .next t' ∧
      t.slot s.target = some (.live q) ∧ t'.slot s'.target = some (.live q') ∧
      q.block = q'.block ∧ q.lastResponse = q'.lastResponse
end

