-- ==== Sys2Proof/Laws/State.lean ====
section
/-! SUPPORT. What each update of a record changes and what it leaves, one lemma a field. -/

namespace Sys2Proof.Machine

section StateUpdates

variable (s : State) (id : Nat) (x : Slot)

@[simp] theorem State.setSlot_params : (s.setSlot id x).params = s.params := rfl
theorem State.setSlot_readers : (s.setSlot id x).readers = insertSlot id x s.readers := rfl
@[simp] theorem State.setSlot_target : (s.setSlot id x).target = s.target := rfl
@[simp] theorem State.setSlot_pending : (s.setSlot id x).pending = s.pending := rfl

/-- The instances depend neither on the parameters, nor on which one a request addresses, nor on what the host does
next. -/
@[simp] theorem State.slot_mk (p : Config.Params) (t : Nat) (l : List HostAction) :
    State.slot { params := p, readers := s.readers, target := t, pending := l } id = s.slot id := rfl

end StateUpdates

section Respond

variable (r : Reader) (n : Nat) (st : Status) (d : Word)

@[simp] theorem Reader.respond_storage : (r.respond n st d).storage = r.storage := rfl
@[simp] theorem Reader.respond_words : (r.respond n st d).words = r.words := rfl
@[simp] theorem Reader.respond_len : (r.respond n st d).len = r.len := rfl
@[simp] theorem Reader.respond_wordIndex : (r.respond n st d).wordIndex = r.wordIndex := rfl
@[simp] theorem Reader.respond_bitsConsumed : (r.respond n st d).bitsConsumed = r.bitsConsumed := rfl
@[simp] theorem Reader.respond_requestSeq : (r.respond n st d).requestSeq = r.requestSeq + 1 := rfl
@[simp] theorem Reader.respond_accesses : (r.respond n st d).accesses = r.accesses := rfl
@[simp] theorem Reader.respond_transactions :
    (r.respond n st d).transactions =
      r.transactions ++ [{ count := n, response := { status := st, data := d } }] := rfl

end Respond

section Raise

variable (r : Reader) (n : Nat) (e : ErrorKind)

@[simp] theorem Reader.raise_storage : (r.raise n e).storage = r.storage := rfl
@[simp] theorem Reader.raise_words : (r.raise n e).words = r.words := rfl
@[simp] theorem Reader.raise_len : (r.raise n e).len = r.len := rfl
@[simp] theorem Reader.raise_wordIndex : (r.raise n e).wordIndex = r.wordIndex := rfl
@[simp] theorem Reader.raise_bitsConsumed : (r.raise n e).bitsConsumed = r.bitsConsumed := rfl
@[simp] theorem Reader.raise_requestSeq : (r.raise n e).requestSeq = r.requestSeq + 1 := rfl
@[simp] theorem Reader.raise_accesses : (r.raise n e).accesses = r.accesses := rfl
@[simp] theorem Reader.raise_transactions :
    (r.raise n e).transactions =
      r.transactions ++ [{ count := n, response := { status := e.status, data := 0#64 } }] := rfl

end Raise

section AdvanceBy

variable (r : Reader) (n : Nat)

@[simp] theorem Reader.advanceBy_storage : (r.advanceBy n).storage = r.storage := rfl
@[simp] theorem Reader.advanceBy_words : (r.advanceBy n).words = r.words := rfl
@[simp] theorem Reader.advanceBy_len : (r.advanceBy n).len = r.len := rfl
@[simp] theorem Reader.advanceBy_wordIndex :
    (r.advanceBy n).wordIndex = (advance r.wordIndex r.bitsConsumed n).1 := rfl
@[simp] theorem Reader.advanceBy_bitsConsumed :
    (r.advanceBy n).bitsConsumed = (advance r.wordIndex r.bitsConsumed n).2 := rfl
@[simp] theorem Reader.advanceBy_requestSeq : (r.advanceBy n).requestSeq = r.requestSeq := rfl
@[simp] theorem Reader.advanceBy_accesses : (r.advanceBy n).accesses = r.accesses := rfl
@[simp] theorem Reader.advanceBy_transactions : (r.advanceBy n).transactions = r.transactions := rfl

end AdvanceBy

section Construct

variable (storage : Nat) (ws : List Word)

@[simp] theorem Reader.construct_storage : (Reader.construct storage ws).storage = storage := rfl
@[simp] theorem Reader.construct_words : (Reader.construct storage ws).words = ws := rfl
@[simp] theorem Reader.construct_len : (Reader.construct storage ws).len = ws.length := rfl
@[simp] theorem Reader.construct_wordIndex : (Reader.construct storage ws).wordIndex = 0 := rfl
@[simp] theorem Reader.construct_bitsConsumed : (Reader.construct storage ws).bitsConsumed = 0#6 := rfl
@[simp] theorem Reader.construct_requestSeq : (Reader.construct storage ws).requestSeq = 0 := rfl
@[simp] theorem Reader.construct_accesses : (Reader.construct storage ws).accesses = [] := rfl
@[simp] theorem Reader.construct_transactions : (Reader.construct storage ws).transactions = [] := rfl

end Construct

end Sys2Proof.Machine
end

