-- ==== Sys2Proof/Laws/Operands.lean ====
section
/-! SUPPORT. What the component functions of a read give, each said once. -/

namespace Sys2Proof.Machine

theorem shiftRight_of_le {s : Nat} (h : s ≤ 63) (w : Word) : shiftRight w s = some (w >>> s) := by
  simp [shiftRight, h]

theorem shiftLeft_of_le {s : Nat} (h : s ≤ 63) (w : Word) : shiftLeft w s = some (w <<< s) := by
  simp [shiftLeft, h]

/-- `mask(k)` as a number. -/
theorem mask_toNat {k : Nat} (h : k ≤ 64) : ∃ m, mask k = some m ∧ m.toNat = 2 ^ k - 1 := by
  unfold mask
  split_ifs with h64
  · subst h64; exact ⟨_, rfl, by decide⟩
  · have hk : k ≤ 63 := by omega
    refine ⟨1#64 <<< k - 1#64, by simp [shiftLeft_of_le hk], ?_⟩
    have hlt : 2 ^ k < 2 ^ 64 := Nat.pow_lt_pow_right (by norm_num) (by omega)
    have hpos : 0 < 2 ^ k := Nat.two_pow_pos k
    rw [BitVec.toNat_sub, BitVec.toNat_shiftLeft]
    simp only [BitVec.toNat_ofNat, Nat.shiftLeft_eq]
    rw [Nat.mod_eq_of_lt (show 1 < 2 ^ 64 by norm_num), one_mul, Nat.mod_eq_of_lt hlt]
    omega

/-- `MemRead` answers exactly at the indices of the storage, with the word there and one event more. -/
theorem Reader.memRead_eq_some {r r' : Reader} {id i : Nat} {w : Word} :
    r.memRead id i = some (w, r') ↔
      r.words[i]? = some w ∧
        r' = { r with accesses := r.accesses ++ [{ reader := id, requestSeq := r.requestSeq, index := i }] } := by
  unfold Reader.memRead
  cases r.words[i]? with
  | none => simp
  | some v => simp [eq_comm]

/-- The numbers of a split (spec 40, R50). -/
theorem takeCur_add_takeNext (c : BitOffset) (n : Nat) : takeCur c n + takeNext c n = n := by
  unfold takeNext takeCur; omega

theorem takeNext_pos_iff (c : BitOffset) (n : Nat) : 0 < takeNext c n ↔ 64 < c.toNat + n := by
  have := c.isLt
  unfold takeNext takeCur leftover; omega

/-- The position of the cursor after an advance, without the word and offset. -/
theorem advance_position {wi n : Nat} {c : BitOffset} (hn : n ≤ 64) :
    (advance wi c n).1 * 64 + (advance wi c n).2.toNat = wi * 64 + c.toNat + n := by
  have hc := c.isLt
  unfold advance
  split_ifs with h
  · simp only [BitVec.toNat_ofNat]; omega
  · simp only [BitVec.toNat_ofNat]; omega

/-- The offset register is zero exactly as a number. -/
theorem bitOffset_eq_zero {c : BitOffset} : c = 0#6 ↔ c.toNat = 0 :=
  ⟨fun h => by rw [h]; rfl, fun h => BitVec.eq_of_toNat_eq (by simpa using h)⟩

/-- When a request's checks pass. -/
theorem requestError_eq_none {r : Reader} {n : Nat} :
    requestError r n = none ↔ 1 ≤ n ∧ n ≤ 64 ∧ r.position + n ≤ r.len * 64 := by
  unfold requestError Reader.position
  split_ifs <;> simp_all <;> omega

/-- When a request's count is invalid. -/
theorem requestError_eq_invalid {r : Reader} {n : Nat} :
    requestError r n = some .invalidBitCount ↔ n = 0 ∨ 64 < n := by
  unfold requestError
  split_ifs <;> simp_all

/-- When a request runs past the end of the stream. -/
theorem requestError_eq_end {r : Reader} {n : Nat} :
    requestError r n = some .endOfStream ↔ 1 ≤ n ∧ n ≤ 64 ∧ r.len * 64 < r.position + n := by
  unfold requestError Reader.position
  split_ifs <;> simp_all <;> omega

end Sys2Proof.Machine
end

