-- ==== Sys2Proof/Laws/Extract.lean ====
section
/-! SUPPORT. The bits of what the extractor and the declarative form give. -/

namespace Sys2Proof.Machine

theorem mask_getLsbD {k : Nat} (h : k ≤ 64) :
    ∃ m, mask k = some m ∧ ∀ j, m.getLsbD j = decide (j < k) := by
  obtain ⟨m, hm, hv⟩ := mask_toNat h
  refine ⟨m, hm, fun j => ?_⟩
  rw [BitVec.getLsbD, hv, Nat.testBit_two_pow_sub_one]

/-- Part 1 is defined for every legal offset and count, and holds the low group of bits. -/
theorem part1_getLsbD (w0 : Word) (c : BitOffset) {n : Nat} :
    ∃ a, part1 w0 c n = some a ∧
      ∀ j, a.getLsbD j = (decide (j < takeCur c n) && w0.getLsbD (c.toNat + j)) := by
  have hc := c.isLt
  obtain ⟨m, hm, hb⟩ := mask_getLsbD (show takeCur c n ≤ 64 by unfold takeCur leftover; omega)
  refine ⟨_, by simp [part1, shiftRight_of_le (show c.toNat ≤ 63 by omega), hm]; rfl, fun j => ?_⟩
  rw [BitVec.getLsbD_and, hb, BitVec.getLsbD_ushiftRight, Bool.and_comm]

/-- Part 2 of a read that straddles is defined, and holds the high group of bits. -/
theorem part2_getLsbD (w1 : Word) (c : BitOffset) {n : Nat} (hn : n ≤ 64) (h : 64 < c.toNat + n) :
    ∃ b, part2 (some w1) c n = some b ∧
      ∀ j, b.getLsbD j = (decide (64 ≤ c.toNat + j ∧ j < n) && w1.getLsbD (c.toNat + j - 64)) := by
  have hc := c.isLt
  have hcur : takeCur c n = 64 - c.toNat := by unfold takeCur leftover; omega
  have hnext : takeNext c n = c.toNat + n - 64 := by unfold takeNext; omega
  obtain ⟨m, hm, hb⟩ := mask_getLsbD (show takeNext c n ≤ 64 by omega)
  have hpart : part2 (some w1) c n = some ((w1 &&& m) <<< takeCur c n) := by
    unfold part2
    rw [if_pos ((takeNext_pos_iff c n).2 h), hm]
    exact shiftLeft_of_le (by omega) _
  refine ⟨_, hpart, fun j => ?_⟩
  rw [BitVec.getLsbD_shiftLeft, BitVec.getLsbD_and, hb, hcur, hnext]
  by_cases h1 : j < 64 - c.toNat
  · have : ¬ (64 ≤ c.toNat + j) := by omega
    simp [h1, this]
  · have e : j - (64 - c.toNat) = c.toNat + j - 64 := by omega
    by_cases h2 : j < n
    · have h3 : c.toNat + j - 64 < c.toNat + n - 64 := by omega
      simp only [e]
      simp [h1, h2, h3, show j < 64 by omega, show 64 ≤ c.toNat + j by omega]
    · have h3 : ¬ (c.toNat + j - 64 < c.toNat + n - 64) := by omega
      simp only [e]
      simp [h2, h3]

/-- The extractor on a read that ends in the current word, whatever stands for the next word. -/
theorem extractor_within (w0 : Word) (w1 : Option Word) (c : BitOffset) {n : Nat} (h : c.toNat + n ≤ 64) :
    ∃ d, wordBoundaryStraddleExtractor w0 w1 c n = some d ∧
      ∀ j, d.getLsbD j = (decide (j < n) && w0.getLsbD (c.toNat + j)) := by
  obtain ⟨a, ha, hb⟩ := part1_getLsbD w0 c (n := n)
  have h2 : part2 w1 c n = some 0#64 := if_neg (by rw [takeNext_pos_iff]; omega)
  have hcur : takeCur c n = n := by unfold takeCur leftover; omega
  exact ⟨a ||| 0#64, by simp [wordBoundaryStraddleExtractor, ha, h2], fun j => by simp [hb, hcur]⟩

/-- The extractor on a read that straddles. -/
theorem extractor_straddle (w0 w1 : Word) (c : BitOffset) {n : Nat} (hn : n ≤ 64) (h : 64 < c.toNat + n) :
    ∃ d, wordBoundaryStraddleExtractor w0 (some w1) c n = some d ∧
      ∀ j, d.getLsbD j = (decide (j < n) &&
        if c.toNat + j < 64 then w0.getLsbD (c.toNat + j) else w1.getLsbD (c.toNat + j - 64)) := by
  obtain ⟨a, ha, hba⟩ := part1_getLsbD w0 c (n := n)
  obtain ⟨b, hb, hbb⟩ := part2_getLsbD w1 c hn h
  refine ⟨a ||| b, by simp [wordBoundaryStraddleExtractor, ha, hb], fun j => ?_⟩
  have hcur : takeCur c n = 64 - c.toNat := by unfold takeCur leftover; omega
  rw [BitVec.getLsbD_or, hba, hbb, hcur]
  by_cases h1 : c.toNat + j < 64
  · have : ¬ (64 ≤ c.toNat + j) := by omega
    simp [h1, this, show j < 64 - c.toNat by omega, show j < n by omega]
  · simp [h1, show ¬ (j < 64 - c.toNat) by omega, show 64 ≤ c.toNat + j by omega]

/-- The declarative sum as a word with given bits. -/
theorem streamSum_getLsbD (words : Memory) (p : Nat) {n : Nat} (hn : n ≤ 64) (j : Nat) :
    (streamSum words p n).getLsbD j = (decide (j < n) && (streamBit words (p + j)).getD false) := by
  induction n generalizing j with
  | zero => simp [streamSum]
  | succ n ih =>
    have ih := fun j => ih (by omega) (j := j)
    have hbit : ∀ j, (((BitVec.ofBool ((streamBit words (p + n)).getD false)).setWidth 64) <<< n).getLsbD j =
        (decide (j = n) && (streamBit words (p + n)).getD false) := by
      intro j
      rw [BitVec.getLsbD_shiftLeft, BitVec.getLsbD_setWidth, BitVec.getLsbD_ofBool]
      by_cases h : j = n
      · subst h; simp [show j < 64 by omega]
      · by_cases h2 : j < n
        · simp [h, h2]
        · simp [h, show j - n ≠ 0 by omega]
    have hand : streamSum words p n &&&
        ((BitVec.ofBool ((streamBit words (p + n)).getD false)).setWidth 64 <<< n) = 0#64 := by
      apply BitVec.eq_of_getLsbD_eq
      intro j _
      rw [BitVec.getLsbD_and, ih, hbit]
      by_cases h : j = n <;> simp [h]
    rw [streamSum, BitVec.add_eq_or_of_and_eq_zero _ _ hand, BitVec.getLsbD_or, ih, hbit]
    by_cases h : j = n
    · subst h; simp
    · by_cases h2 : j < n
      · simp [h, h2, show j < n + 1 by omega]
      · simp [h, h2, show ¬ (j < n + 1) by omega]

/-- Consecutive stretches of the stream join. -/
theorem streamBits_add (words : Memory) (p n m : Nat) :
    streamBits words p (n + m) = streamBits words p n ++ streamBits words (p + n) m := by
  unfold streamBits
  rw [List.range_add, List.map_append, List.map_map]
  simp [Function.comp_def, Nat.add_assoc]

end Sys2Proof.Machine
end

