-- ==== Sys2Proof/Laws/PerInstr.lean ====
section
/-! SUPPORT. What holds of every request as syntax, one lemma per constructor. -/

namespace Sys2Proof.Laws.RoundTrip

/-- A request that a word can carry is read back from its word, with its count (spec 30, R40, R41). -/
def Statement (i : Instr) : Prop :=
  i.WellFormed → decode (encode i) = i

theorem read (n : Nat) : Statement (.read n) := by
  intro h
  have h : n < 128 := h
  simp [encode, presentCount, h, decode, Nat.mod_eq_of_lt h]

end Sys2Proof.Laws.RoundTrip
end

