-- ==== Sys2Proof/Laws/Table.lean ====
section
/-! SUPPORT. The table of instances: reading after writing, and its canonical form. -/

namespace Sys2Proof.Machine

theorem lookupSlot_insertSlot_same (id : Nat) (x : Slot) (l : List (Nat × Slot)) :
    lookupSlot id (insertSlot id x l) = some x := by
  induction l with
  | nil => simp [insertSlot, lookupSlot]
  | cons a rest ih =>
    obtain ⟨k, y⟩ := a
    simp only [insertSlot]
    split_ifs with h1 h2
    · simp [lookupSlot]
    · simp [lookupSlot]
    · simp [lookupSlot, Ne.symm h2, ih]

theorem lookupSlot_insertSlot_other {id j : Nat} (h : j ≠ id) (x : Slot) (l : List (Nat × Slot)) :
    lookupSlot j (insertSlot id x l) = lookupSlot j l := by
  induction l with
  | nil => simp [insertSlot, lookupSlot, Ne.symm h]
  | cons a rest ih =>
    obtain ⟨k, y⟩ := a
    simp only [insertSlot]
    split_ifs with h1 h2
    · simp [lookupSlot, Ne.symm h]
    · subst h2; simp [lookupSlot, Ne.symm h]
    · simp [lookupSlot, ih]

/-- The ids a write leaves in the table. -/
theorem mem_insertSlot {id : Nat} {x : Slot} {l : List (Nat × Slot)} {p : Nat × Slot}
    (h : p ∈ insertSlot id x l) : p = (id, x) ∨ p ∈ l := by
  induction l with
  | nil => simpa [insertSlot] using h
  | cons a rest ih =>
    obtain ⟨k, y⟩ := a
    simp only [insertSlot] at h
    split_ifs at h with h1 h2 <;> simp only [List.mem_cons] at h ⊢ <;> tauto

/-- Writing an entry keeps the canonical form. -/
theorem insertSlot_wf {l : List (Nat × Slot)} (h : slotsWf l) (id : Nat) (x : Slot) :
    slotsWf (insertSlot id x l) := by
  induction l with
  | nil => simp [insertSlot]
  | cons a rest ih =>
    obtain ⟨k, y⟩ := a
    obtain ⟨hk, hrest⟩ := List.pairwise_cons.1 h
    simp only [insertSlot]
    split_ifs with h1 h2
    · exact List.pairwise_cons.2 ⟨fun p hp => by
        rcases List.mem_cons.1 hp with rfl | hp
        · exact h1
        · exact h1.trans (hk p hp), h⟩
    · subst h2; exact List.pairwise_cons.2 ⟨hk, hrest⟩
    · refine List.pairwise_cons.2 ⟨fun p hp => ?_, ih hrest⟩
      rcases mem_insertSlot hp with rfl | hp
      · show k < id; omega
      · exact hk p hp

/-- An entry found is an entry of the list. -/
theorem mem_of_lookupSlot {id : Nat} {x : Slot} {l : List (Nat × Slot)} (h : lookupSlot id l = some x) :
    (id, x) ∈ l := by
  induction l with
  | nil => simp [lookupSlot] at h
  | cons a rest ih =>
    obtain ⟨k, y⟩ := a
    simp only [lookupSlot] at h
    split_ifs at h with hk
    · simp_all
    · exact List.mem_cons_of_mem _ (ih h)

/-- In canonical form, an entry of the list is the one found. -/
theorem lookupSlot_of_mem {id : Nat} {x : Slot} {l : List (Nat × Slot)} (hw : slotsWf l) (h : (id, x) ∈ l) :
    lookupSlot id l = some x := by
  induction l with
  | nil => simp at h
  | cons a rest ih =>
    obtain ⟨k, y⟩ := a
    obtain ⟨hk, hrest⟩ := List.pairwise_cons.1 hw
    rcases List.mem_cons.1 h with heq | hm
    · cases heq; simp [lookupSlot]
    · have : k < id := hk _ hm
      simp [lookupSlot, Nat.ne_of_lt this, ih hrest hm]

@[simp] theorem State.slot_setSlot_same (s : State) (id : Nat) (x : Slot) : (s.setSlot id x).slot id = some x :=
  lookupSlot_insertSlot_same id x s.readers

@[simp] theorem State.slot_setSlot_other (s : State) {id j : Nat} (h : j ≠ id) (x : Slot) :
    (s.setSlot id x).slot j = s.slot j :=
  lookupSlot_insertSlot_other h x s.readers

/-- Reading any entry after a write. -/
theorem State.slot_setSlot (s : State) (id j : Nat) (x : Slot) :
    (s.setSlot id x).slot j = if j = id then some x else s.slot j := by
  by_cases h : j = id
  · subst h; simp
  · simp [h]

theorem State.liveReader_eq_some {s : State} {id : Nat} {r : Reader} :
    s.liveReader id = some r ↔ s.slot id = some (.live r) := by
  unfold State.liveReader
  split <;> simp_all

end Sys2Proof.Machine
end

