-- ==== Sys2Proof/Laws/Read.lean ====
section
/-! SUPPORT. Everything a request can do to a reader and to the machine, said once. -/

namespace Sys2Proof.Machine

theorem Reader.position_eq (r : Reader) : r.position = r.wordIndex * 64 + r.bitsConsumed.toNat := rfl

/-- In a state of spec 10, R18, the position lies inside the storage, or at its end. -/
theorem Reader.Ok.position_le {r : Reader} (h : r.Ok) : r.position ≤ r.len * 64 := by
  obtain ⟨-, h2, h3⟩ := h
  have hc := r.bitsConsumed.isLt
  rw [Reader.position_eq]
  rcases Nat.lt_or_ge r.wordIndex r.len with h | h
  · omega
  · have e : r.wordIndex = r.len := by omega
    rw [h3 e, e]; simp

/-- A stream bit of the current word or of the next one (spec 20, R28). -/
theorem streamBit_position (r : Reader) (j : Nat) :
    streamBit r.words (r.position + j) =
      (r.words[r.wordIndex + (r.bitsConsumed.toNat + j) / 64]?).map
        fun w => w.getLsbD ((r.bitsConsumed.toNat + j) % 64) := by
  have e1 : (r.position + j) / 64 = r.wordIndex + (r.bitsConsumed.toNat + j) / 64 := by
    rw [Reader.position_eq]; omega
  have e2 : (r.position + j) % 64 = (r.bitsConsumed.toNat + j) % 64 := by
    rw [Reader.position_eq]; omega
  rw [streamBit, e1, e2]

/-- The reader that a successful read of `n` bits leaves. -/
abbrev Reader.afterRead (r : Reader) (id n : Nat) : Reader :=
  { r with
    wordIndex := (advance r.wordIndex r.bitsConsumed n).1
    bitsConsumed := (advance r.wordIndex r.bitsConsumed n).2
    requestSeq := r.requestSeq + 1
    accesses := r.accesses ++ r.readEvents id n
    transactions := r.transactions ++
      [{ count := n, response := { status := .ok, data := streamSum r.words r.position n } }] }

theorem Reader.afterRead_position (r : Reader) (id : Nat) {n : Nat} (hn : n ≤ 64) :
    (r.afterRead id n).position = r.position + n :=
  advance_position (wi := r.wordIndex) (c := r.bitsConsumed) hn

theorem Reader.afterRead_lastResponse (r : Reader) (id n : Nat) :
    (r.afterRead id n).lastResponse = some { status := .ok, data := streamSum r.words r.position n } := by
  simp [Reader.lastResponse]

theorem Reader.raise_lastResponse (r : Reader) (n : Nat) (e : ErrorKind) :
    (r.raise n e).lastResponse = some { status := e.status, data := 0#64 } := by
  simp [Reader.lastResponse]

/-- A request that fails its checks raises the error and does nothing else (spec 60, R66). -/
theorem readOn_error {id n : Nat} {r : Reader} {e : ErrorKind} (h : requestError r n = some e) :
    readOn id n r = .next (r.raise n e) := by
  simp [readOn, h]

/-- A request that passes its checks completes, with the stream's bits as its data (spec 40, R53). -/
theorem readOn_success {id n : Nat} {r : Reader} (hr : r.Ok) (h : requestError r n = none) :
    readOn id n r = .next (r.afterRead id n) := by
  obtain ⟨h1, h2, h3⟩ := requestError_eq_none.1 h
  obtain ⟨hlen, -, -⟩ := hr
  have hlen : r.words.length = r.len := hlen
  have hc := r.bitsConsumed.isLt
  rw [Reader.position_eq] at h3
  have hw : r.wordIndex < r.words.length := by omega
  by_cases hs : 64 < r.bitsConsumed.toNat + n
  · have hw' : r.wordIndex + 1 < r.words.length := by omega
    obtain ⟨d, hd, hb⟩ :=
      extractor_straddle r.words[r.wordIndex] r.words[r.wordIndex + 1] r.bitsConsumed h2 hs
    have hdata : d = streamSum r.words r.position n := by
      apply BitVec.eq_of_getLsbD_eq
      intro j hj
      rw [hb, streamSum_getLsbD _ _ h2, streamBit_position]
      by_cases hjn : j < n
      · by_cases hlow : r.bitsConsumed.toNat + j < 64
        · simp [hjn, hlow, Nat.div_eq_of_lt hlow, Nat.mod_eq_of_lt hlow, List.getElem?_eq_getElem hw]
        · have e1 : (r.bitsConsumed.toNat + j) / 64 = 1 := by omega
          have e2 : (r.bitsConsumed.toNat + j) % 64 = r.bitsConsumed.toNat + j - 64 := by omega
          simp [hjn, hlow, e1, e2, List.getElem?_eq_getElem hw']
      · simp [hjn]
    simp only [readOn, h, Reader.fetch, Reader.memRead, List.getElem?_eq_getElem hw,
      if_pos ((takeNext_pos_iff _ _).2 hs), List.getElem?_eq_getElem hw', hd, hdata]
    simp [Reader.advanceBy, Reader.respond, Reader.readEvents, hs]
  · obtain ⟨d, hd, hb⟩ :=
      extractor_within r.words[r.wordIndex] none r.bitsConsumed (n := n) (by omega)
    have hdata : d = streamSum r.words r.position n := by
      apply BitVec.eq_of_getLsbD_eq
      intro j hj
      rw [hb, streamSum_getLsbD _ _ h2, streamBit_position]
      by_cases hjn : j < n
      · have hlow : r.bitsConsumed.toNat + j < 64 := by omega
        simp [hjn, Nat.div_eq_of_lt hlow, Nat.mod_eq_of_lt hlow, List.getElem?_eq_getElem hw]
      · simp [hjn]
    have hs' : ¬ 0 < takeNext r.bitsConsumed n := by rw [takeNext_pos_iff]; exact hs
    simp only [readOn, h, Reader.fetch, Reader.memRead, List.getElem?_eq_getElem hw, if_neg hs', hd, hdata]
    simp [Reader.advanceBy, Reader.respond, Reader.readEvents, hs]

/-- The instance addressed decides how a request's work is carried out. -/
theorem State.onTarget_of_live {s : State} {r : Reader} (h : s.Addresses r)
    (f : Reader → Host.Outcome Reader Fault Refusal) {r' : Reader} (hf : f r = .next r') :
    s.onTarget f = .next (s.setSlot s.target (.live r')) := by
  obtain ⟨h1, h2⟩ := h
  simp only [State.onTarget, h1, if_pos h2, hf]

/-- A read whose reader's step completes, completes. -/
theorem exec_read {s : State} {r r' : Reader} {n : Nat} (h : s.Addresses r) (hr : readOn s.target n r = .next r') :
    exec (.read n) s = .next (s.setSlot s.target (.live r')) :=
  State.onTarget_of_live h (readOn s.target n) hr

/-- A request that completes had a live reader in a state of spec 10, R18, and changed that reader only. -/
theorem State.onTarget_next {s t : State} {f : Reader → Host.Outcome Reader Fault Refusal}
    (h : s.onTarget f = .next t) :
    ∃ r r', s.Addresses r ∧ f r = .next r' ∧ t = s.setSlot s.target (.live r') := by
  unfold State.onTarget at h
  split at h
  · simp at h
  · simp at h
  · rename_i r hr
    split_ifs at h with hok
    · split at h
      · rename_i r' hf
        exact ⟨r, r', ⟨hr, hok⟩, hf, by simpa using h.symm⟩
      · simp at h
      · simp at h

/-- The two ways a `READ n` on a reader ends: an error that it raises, or a success. -/
theorem readOn_cases (id n : Nat) {r : Reader} (hr : r.Ok) :
    (∃ e, requestError r n = some e ∧ readOn id n r = .next (r.raise n e)) ∨
      (requestError r n = none ∧ readOn id n r = .next (r.afterRead id n)) := by
  cases h : requestError r n with
  | some e => exact .inl ⟨e, rfl, readOn_error h⟩
  | none => exact .inr ⟨rfl, readOn_success hr h⟩

/-- Every request to a reader in a state of spec 10, R18, completes. -/
theorem readOn_total (id n : Nat) {r : Reader} (hr : r.Ok) : ∃ r', readOn id n r = .next r' := by
  rcases readOn_cases id n hr with ⟨e, -, h⟩ | ⟨-, h⟩
  · exact ⟨_, h⟩
  · exact ⟨_, h⟩

/-- A request leaves its reader in a state of spec 10, R18. -/
theorem readOn_keeps_ok {id n : Nat} {r r' : Reader} (hr : r.Ok) (h : readOn id n r = .next r') : r'.Ok := by
  rcases readOn_cases id n hr with ⟨e, -, he⟩ | ⟨hn, he⟩
  · rw [he] at h; cases h; exact hr
  · rw [he] at h; cases h
    obtain ⟨h1, h2, h3⟩ := requestError_eq_none.1 hn
    have hp := advance_position (wi := r.wordIndex) (c := r.bitsConsumed) h2
    rw [Reader.position_eq] at h3
    refine ⟨hr.1, ?_, fun hend => ?_⟩
    · show (advance r.wordIndex r.bitsConsumed n).1 ≤ r.len
      omega
    · have hend : (advance r.wordIndex r.bitsConsumed n).1 = r.len := hend
      show (advance r.wordIndex r.bitsConsumed n).2 = 0#6
      rw [hend] at hp
      exact bitOffset_eq_zero.2 (by omega)

/-- A change of one instance leaves the rest of the machine. -/
theorem State.agreeExcept_setSlot (s : State) (id : Nat) (x : Slot) : s.AgreeExcept id (s.setSlot id x) :=
  ⟨rfl, rfl, rfl, fun _ hj => s.slot_setSlot_other hj x⟩

/-- What a completed request did: its reader's step, and nothing to the rest of the machine. -/
theorem exec_next {i : Instr} {s t : State} (h : exec i s = .next t) :
    ∃ n r r', i = .read n ∧ s.Addresses r ∧ readOn s.target n r = .next r' ∧
      t = s.setSlot s.target (.live r') := by
  cases i with
  | read n =>
    obtain ⟨r, r', h1, h2, h3⟩ := State.onTarget_next h
    exact ⟨n, r, r', rfl, h1, h2, h3⟩

/-- The two ways a read addressed to a live reader ends. -/
theorem exec_read_cases {n : Nat} {s : State} {r : Reader} (hs : s.Addresses r) :
    (∃ e, requestError r n = some e ∧
        exec (.read n) s = .next (s.setSlot s.target (.live (r.raise n e)))) ∨
      (requestError r n = none ∧
        exec (.read n) s = .next (s.setSlot s.target (.live (r.afterRead s.target n)))) := by
  rcases readOn_cases s.target n hs.2 with ⟨e, h1, h2⟩ | ⟨h1, h2⟩
  · exact .inl ⟨e, h1, exec_read hs h2⟩
  · exact .inr ⟨h1, exec_read hs h2⟩

/-- From a read that completed, to what it did to the reader it was addressed to. -/
theorem exec_read_inv {n : Nat} {s t : State} {r r' : Reader} (h : exec (.read n) s = .next t)
    (hr : s.slot s.target = some (.live r)) (hr' : t.slot s.target = some (.live r')) :
    s.Addresses r ∧ ((∃ e, requestError r n = some e ∧ r' = r.raise n e) ∨
      (requestError r n = none ∧ r' = r.afterRead s.target n)) := by
  obtain ⟨m, q, q', hm, hq, hread, rfl⟩ := exec_next h
  cases hm
  obtain rfl : q = r := by simpa [hr, eq_comm] using hq.1
  rw [State.slot_setSlot_same] at hr'
  cases hr'
  refine ⟨hq, ?_⟩
  rcases readOn_cases s.target n hq.2 with ⟨e, h1, h2⟩ | ⟨h1, h2⟩
  · rw [h2] at hread; cases hread; exact .inl ⟨e, h1, rfl⟩
  · rw [h2] at hread; cases hread; exact .inr ⟨h1, rfl⟩

end Sys2Proof.Machine
end

