-- ==== Sys2Proof/Laws/Step.lean ====
section
/-! SUPPORT. Everything an action of the host can do to the machine, said once, and that every operation keeps the
canonical forms. -/

namespace Sys2Proof.Machine

theorem storageInUse_eq_true {storage : Nat} {l : List (Nat × Slot)} :
    storageInUse storage l = true ↔ ∃ id r, (id, Slot.live r) ∈ l ∧ r.storage = storage := by
  induction l with
  | nil => simp [storageInUse]
  | cons a rest ih =>
    obtain ⟨k, x⟩ := a
    cases x with
    | live r0 =>
      simp only [storageInUse, Bool.or_eq_true, decide_eq_true_eq, ih, List.mem_cons, Prod.mk.injEq,
        Slot.live.injEq]
      constructor
      · rintro (h | ⟨id, r, h1, h2⟩)
        · exact ⟨k, r0, .inl ⟨rfl, rfl⟩, h⟩
        · exact ⟨id, r, .inr h1, h2⟩
      · rintro ⟨id, r, ⟨rfl, rfl⟩ | h1, h2⟩
        · exact .inl h2
        · exact .inr ⟨id, r, h1, h2⟩
    | destroyed => simp [storageInUse, ih]

theorem storageConflict_eq_true {id storage : Nat} {ws : List Word} {l : List (Nat × Slot)} :
    storageConflict id storage ws l = true ↔
      ∃ k r, (k, Slot.live r) ∈ l ∧ k ≠ id ∧ r.storage = storage ∧ r.words ≠ ws := by
  induction l with
  | nil => simp [storageConflict]
  | cons a rest ih =>
    obtain ⟨k, x⟩ := a
    cases x with
    | live r0 =>
      simp only [storageConflict, Bool.or_eq_true, Bool.and_eq_true, decide_eq_true_eq, ih, List.mem_cons,
        Prod.mk.injEq, Slot.live.injEq]
      constructor
      · rintro (⟨⟨h1, h2⟩, h3⟩ | ⟨j, r, h1, h2⟩)
        · exact ⟨k, r0, .inl ⟨rfl, rfl⟩, h1, h2, h3⟩
        · exact ⟨j, r, .inr h1, h2⟩
      · rintro ⟨j, r, ⟨rfl, rfl⟩ | h1, h2⟩
        · exact .inl ⟨⟨h2.1, h2.2.1⟩, h2.2.2⟩
        · exact .inr ⟨j, r, h1, h2⟩
    | destroyed => simp [storageConflict, ih]

/-- A live reader found is a use of its storage. -/
theorem State.storageInUse_of_slot {s : State} {id : Nat} {r : Reader} (h : s.slot id = some (.live r)) :
    storageInUse r.storage s.readers = true :=
  storageInUse_eq_true.2 ⟨id, r, mem_of_lookupSlot h, rfl⟩

/-- Without a conflict, every other live reader over the storage has these words. -/
theorem State.words_of_no_conflict {s : State} {id storage : Nat} {ws : List Word}
    (h : storageConflict id storage ws s.readers = false) {k : Nat} {r : Reader} (hk : k ≠ id)
    (hr : s.slot k = some (.live r)) (hs : r.storage = storage) : r.words = ws := by
  by_contra hw
  have := storageConflict_eq_true.2 ⟨k, r, mem_of_lookupSlot hr, hk, hs, hw⟩
  simp [h] at this

/-- A word stands for its own count. -/
theorem presents_toNat (w : RequestWord) : presents w.toNat w = true := by
  simp [presents, w.isLt]

/-- Everything a completed action can have done. -/
theorem perform_next {a : HostAction} {s t : State} (h : perform a s = .next t) :
    (∃ id storage ws, a = .construct id storage ws ∧ id < s.params.nReaders ∧ ws.length ≤ s.params.maxWords ∧
        storageConflict id storage ws s.readers = false ∧
        t = s.setSlot id (.live (Reader.construct storage ws))) ∨
      (∃ id count word r r', a = .request id count word ∧ presents count word = true ∧
        s.slot id = some (.live r) ∧ r.Ok ∧ readOn id word.toNat r = .next r' ∧
        t = ({ s with target := id } : State).setSlot id (.live r')) ∨
      (∃ id r, a = .destroy id ∧ s.slot id = some (.live r) ∧ t = s.setSlot id .destroyed) ∨
      ((∃ id, a = .observe id) ∨
        ∃ storage index value, a = .writeStorage storage index value ∧ storageInUse storage s.readers = false) ∧
        t = s := by
  cases a with
  | construct id storage ws =>
    simp only [perform, construct] at h
    split_ifs at h with h1 h2 h3
    exact .inl ⟨id, storage, ws, rfl, by omega, by omega, by simpa using h3, by simpa using h.symm⟩
  | request id count word =>
    simp only [perform, request] at h
    split_ifs at h with h1
    obtain ⟨n, r, r', hn, ⟨hr, hok⟩, hread, ht⟩ := exec_next h
    cases hn
    exact .inr (.inl ⟨id, count, word, r, r', rfl, h1, hr, hok, hread, ht⟩)
  | observe id => exact .inr (.inr (.inr ⟨.inl ⟨id, rfl⟩, by simpa [perform, Machine.observe] using h.symm⟩))
  | destroy id =>
    simp only [perform, destroy] at h
    split at h
    · simp at h
    · simp at h
    · rename_i r hr
      exact .inr (.inr (.inl ⟨id, r, rfl, hr, by simpa using h.symm⟩))
  | writeStorage storage index value =>
    simp only [perform, writeStorage] at h
    split_ifs at h with h1
    exact .inr (.inr (.inr ⟨.inr ⟨storage, index, value, rfl, by simpa using h1⟩, by simpa using h.symm⟩))
  | overlappingRequest id word => simp [perform, overlappingRequest] at h

/-- A step is the next action of the host, taken off the list, or nothing. -/
theorem step_next {s t : State} (h : step s = .next t) :
    (s.pending = [] ∧ t = s) ∨
      ∃ a rest, s.pending = a :: rest ∧ perform a { s with pending := rest } = .next t := by
  unfold step takeAction at h
  split at h
  · rename_i hp; exact .inl ⟨hp, by simpa using h.symm⟩
  · rename_i a rest hp; exact .inr ⟨a, rest, hp, h⟩

/-- The storage of a reader keeps its canonical form through the step of a request: the words and their number are as
before. -/
theorem readOn_keeps_memory {id n : Nat} {r r' : Reader} (hr : r.Ok) (h : readOn id n r = .next r') :
    r'.words = r.words ∧ r'.len = r.len ∧ r'.storage = r.storage ∧ r'.words.wf r'.len := by
  rcases readOn_cases id n hr with ⟨e, -, he⟩ | ⟨-, he⟩
  · rw [he] at h; cases h; exact ⟨rfl, rfl, rfl, hr.1⟩
  · rw [he] at h; cases h; exact ⟨rfl, rfl, rfl, hr.1⟩

/-- A constructed storage is in its canonical form. -/
theorem construct_memory_wf (storage : Nat) (ws : List Word) :
    (Reader.construct storage ws).words.wf (Reader.construct storage ws).len := rfl

/-- The launch state's storage and table are in their canonical forms. -/
theorem reset_canonical :
    slotsWf State.reset.readers ∧ ∀ id r, State.reset.slot id = some (.live r) → r.words.wf r.len := by
  refine ⟨by simp [State.reset], fun id r h => ?_⟩
  simp only [State.slot, State.reset, lookupSlot] at h
  split_ifs at h
  simp only [Option.some.injEq, Slot.live.injEq] at h
  subst h; rfl

/-- Every action of the host keeps the table's canonical form. -/
theorem perform_keeps_table {a : HostAction} {s t : State} (hw : slotsWf s.readers) (h : perform a s = .next t) :
    slotsWf t.readers := by
  rcases perform_next h with ⟨id, storage, ws, -, -, -, -, rfl⟩ | ⟨id, count, word, r, r', -, -, -, -, -, rfl⟩ |
    ⟨id, r, -, -, rfl⟩ | ⟨-, rfl⟩
  · exact insertSlot_wf hw _ _
  · exact insertSlot_wf hw _ _
  · exact insertSlot_wf hw _ _
  · exact hw

end Sys2Proof.Machine
end

