-- ==== Sys2Proof/Tests/Slice0.lean ====
section
/-! SUPPORT. Tests with results taken from the spec's tables (spec 95) or worked out by hand from its rules, and for
every statement with hypotheses a state and operands that meet them. -/

namespace Sys2Proof.Tests

open Sys2Proof.Machine

/-! ### Helpers -/

/-- A reader over `ws` at a cursor, with nothing recorded. -/
def readerAt (ws : List Word) (wi : Nat) (c : BitOffset) : Reader :=
  { Reader.construct 7 ws with wordIndex := wi, bitsConsumed := c }

/-- A machine of two instances, of which instance 0 is this reader; a storage holds at most four words. -/
def machineOf (r : Reader) : State :=
  { params := { maxWords := 4, nReaders := 2 }, readers := [(0, .live r)], target := 0, pending := [] }

/-- Whether an outcome is a next state. -/
def completes : Host.Outcome State Fault Refusal → Bool
  | .next _ => true
  | _ => false

/-- Why an outcome is refused. -/
def refusal : Host.Outcome State Fault Refusal → Option Refusal
  | .refused e => some e
  | _ => none

/-- After an outcome: the cursor of instance 0, its last response, and the indices it has read. -/
def seen : Host.Outcome State Fault Refusal → Option ((Nat × BitOffset) × Option Response × List Nat)
  | .next t => (t.liveReader 0).map fun r => (r.cursor, r.lastResponse, r.accesses.map Access.index)
  | _ => none

/-- An outcome that completes is a next state. -/
theorem next_of_completes {o : Host.Outcome State Fault Refusal} (h : completes o = true) : ∃ t, o = .next t := by
  cases o with
  | next t => exact ⟨t, rfl⟩
  | fault _ => simp [completes] at h
  | refused _ => simp [completes] at h

/-- The word `W` of spec 95. -/
def exampleWord : Word := 0x0807060504030201#64

/-- The helper's machine has one live reader, whatever its host does next. -/
theorem machineOf_slot {r : Reader} {id : Nat} {x : Slot} (h : (machineOf r).slot id = some x) :
    id = 0 ∧ x = .live r := by
  simp only [State.slot, machineOf, lookupSlot] at h
  split_ifs at h with h0
  exact ⟨h0.symm, (Option.some.inj h).symm⟩

/-- The helper's machine meets the invariant. -/
theorem machineOf_inv {r : Reader} (h : r.Ok) (hl : r.len ≤ 4) : (machineOf r).Inv := by
  refine ⟨by simp [machineOf], fun id q hq => ?_, fun id q hq => ?_, fun id x hx => ?_, fun id id' q q' hq hq' _ => ?_⟩
  · obtain ⟨-, hq⟩ := machineOf_slot hq; cases hq; exact h
  · obtain ⟨-, hq⟩ := machineOf_slot hq; cases hq; exact hl
  · obtain ⟨rfl, -⟩ := machineOf_slot hx; show 0 < 2; omega
  · obtain ⟨-, hq⟩ := machineOf_slot hq; obtain ⟨-, hq'⟩ := machineOf_slot hq'; cases hq; cases hq'; rfl

/-! ### Well-formedness: an ill-formed term for each check -/

/-- A count of 128 needs an eighth bit (spec 30, R40). -/
theorem test_illFormed_count : ¬ (Instr.read 128).WellFormed ∧ (Instr.read 127).WellFormed := by decide

/-- A storage of one word is not one of length two. -/
theorem test_illFormed_memory : ¬ Memory.wf [0#64] 2 ∧ Memory.wf [0#64] 1 := by decide

/-- Ids out of order, or twice, are not the table's canonical form. -/
theorem test_illFormed_table :
    ¬ slotsWf [(1, .destroyed), (0, .destroyed)] ∧ ¬ slotsWf [(1, .destroyed), (1, .destroyed)] ∧
      slotsWf [(0, .destroyed), (1, .destroyed)] := by decide

/-- A reader exhausted inside a word breaks spec 10, R18 (R25's example). -/
theorem test_illFormed_reader : ¬ (readerAt [0#64] 1 1#6).Ok ∧ (readerAt [0#64] 1 0#6).Ok := by decide

/-! ### Decoding, from words written out from spec 30, R40 and R48 -/

theorem test_decode_read64 : decode 0b1000000#7 = .read 64 := by decide
theorem test_decode_read0 : decode 0b0000000#7 = .read 0 := by decide
theorem test_decode_read65 : decode 0b1000001#7 = .read 65 := by decide

/-- The encoding of program P3 (spec 95, section 3), written with the encoder. -/
theorem test_encode_program :
    encodeProgram [.read 60, .read 8, .read 0, .read 4, .read 1, .read 65] =
      [0x3C#8, 0x08#8, 0x00#8, 0x04#8, 0x01#8, 0x41#8] := by decide

/-- The truncation of spec 30, R43 (`129` to `1`) does not happen. -/
theorem test_encode_never_truncates : encode (.read 129) = 127#7 := by decide

/-- A table word with bit 7 set is no request. -/
theorem test_decodeTableWord : decodeTableWord 8 0x21 = some (.read 33) ∧ decodeTableWord 8 0xA1 = none := by decide

/-! ### Component functions (spec 95, sections 2.1 to 2.4) -/

theorem test_mask :
    mask 0 = some 0#64 ∧ mask 1 = some 1#64 ∧ mask 32 = some 0xFFFFFFFF#64 ∧
      mask 63 = some 0x7FFFFFFFFFFFFFFF#64 ∧ mask 64 = some 0xFFFFFFFFFFFFFFFF#64 ∧ mask 65 = none := by decide

theorem test_split :
    (takeCur 60#6 8, takeNext 60#6 8) = (4, 4) ∧ (takeCur 63#6 64, takeNext 63#6 64) = (1, 63) ∧
      (takeCur 32#6 32, takeNext 32#6 32) = (32, 0) ∧ (takeCur 0#6 64, takeNext 0#6 64) = (64, 0) := by decide

theorem test_advance :
    advance 4 0#6 63 = (4, 63#6) ∧ advance 4 63#6 1 = (5, 0#6) ∧ advance 4 63#6 64 = (5, 63#6) ∧
      advance 4 0#6 64 = (5, 0#6) := by decide

theorem test_extractor :
    wordBoundaryStraddleExtractor 0x0123456789ABCDEF#64 (some 0xFEDCBA9876543210#64) 8#6 64 =
      some 0x100123456789ABCD#64 ∧
    wordBoundaryStraddleExtractor 0xFFFFFFFFFFFFFFFE#64 none 1#6 63 = some 0x7FFFFFFFFFFFFFFF#64 := by decide

/-! ### `READ` (spec 95, section 2.5) and the host's actions -/

/-- R-4: the widest straddle, one bit of word 0 and 63 of word 1. -/
theorem test_read_straddle :
    seen (exec (.read 64) (machineOf (readerAt [0x8000000000000000#64, 0x7FFFFFFFFFFFFFFF#64] 0 63#6))) =
      some ((1, 63#6), some { status := .ok, data := 0xFFFFFFFFFFFFFFFF#64 }, [0, 1]) := by decide

/-- R-3: the last word is ended exactly and nothing behind it is touched. -/
theorem test_read_exact_end :
    seen (exec (.read 63) (machineOf (readerAt [0xFFFFFFFFFFFFFFFE#64] 0 1#6))) =
      some ((1, 0#6), some { status := .ok, data := 0x7FFFFFFFFFFFFFFF#64 }, [0]) := by decide

/-- R-6 and R-15: a missing next word; an invalid count on an exhausted reader. -/
theorem test_read_errors :
    seen (exec (.read 64) (machineOf (readerAt [0xFFFFFFFFFFFFFFFF#64] 0 1#6))) =
      some ((0, 1#6), some { status := .endOfStream, data := 0#64 }, []) ∧
    seen (exec (.read 65) (machineOf (readerAt [exampleWord, exampleWord] 2 0#6))) =
      some ((2, 0#6), some { status := .invalidBitCount, data := 0#64 }, []) := by decide

/-- The first request after the launch state is answered (over the empty storage: R-7). -/
theorem test_reset_runs_a_request :
    seen (step (State.reset.withFetchWord 8 0x01)) =
      some ((0, 0#6), some { status := .endOfStream, data := 0#64 }, []) := by decide

/-- `CONSTRUCT [0x1F, 0x0]` read from its line (spec 30, R48), with a grouping `_` and a comment. -/
theorem test_parse_construct :
    parseLine ['C','O','N','S','T','R','U','C','T',' ','[','0','x','1','_','F',',',' ','0','x','0',']',' ',';','w'] =
      .ok (.construct [0x1F#64, 0x0#64]) := by decide

theorem test_parse_read :
    parseLine ['R','E','A','D',' ','0','x','4','0'] = .ok (.read (.read 64)) ∧
      parseLine ['R','E','A','D',' ','1','2','8'] = .error .outOfRange := by decide

/-! ### Witnesses: states and operands that meet the hypotheses of the statements -/

/-- `ProgramsReadBack`, both directions. -/
theorem witness_programs :
    (∀ i ∈ [Instr.read 0, Instr.read 127], i.WellFormed) ∧ decodeProgram [0x7F#8] = .ok [.read 127] := by decide

/-- `LargeCountsAreNeverReduced`: the least such count, the words that may stand for it, and one that may not. -/
theorem witness_large_counts :
    128 ≤ 128 ∧ presents 128 0#7 = true ∧ presents 128 65#7 = true ∧ presents 129 1#7 = false ∧
      presents 129 64#7 = false ∧ (machineOf (readerAt [exampleWord] 1 0#6)).Addresses (readerAt [exampleWord] 1 0#6) := by
  refine ⟨by decide, by decide, by decide, by decide, by decide, rfl, by decide⟩

/-- `LinesReadBack`: the greatest count of a word, and a line that is a request. -/
theorem witness_lines :
    127 < 128 ∧ parseLine ['R','E','A','D',' ','1','2','7'] = .ok (.read (.read 127)) := by decide

/-- `EveryStepKeepsTheInvariant`, `EveryBitIsReturnedOnceAndInOrder`, `AccessesStayInsideTheStorage`,
`ParametersAreFixed`: a state that meets the three invariants and takes a step that reads. -/
theorem witness_step :
    ((machineOf (readerAt [exampleWord] 0 0#6)).presentNext 0x40#7).Inv ∧
      ((machineOf (readerAt [exampleWord] 0 0#6)).presentNext 0x40#7).InOrder ∧
      ((machineOf (readerAt [exampleWord] 0 0#6)).presentNext 0x40#7).Recorded ∧
      ∃ t, step ((machineOf (readerAt [exampleWord] 0 0#6)).presentNext 0x40#7) = .next t := by
  have inv := machineOf_inv (r := readerAt [exampleWord] 0 0#6) (by decide) (by decide)
  refine ⟨⟨inv.table, inv.readerOk, inv.lenBound, inv.idBound, inv.shared⟩, fun id r hr => ?_, fun id r hr => ?_,
    next_of_completes (by decide)⟩
  · obtain ⟨-, hr⟩ := machineOf_slot hr; cases hr; rfl
  · obtain ⟨-, hr⟩ := machineOf_slot hr; cases hr; exact ⟨rfl, fun a ha => by simp [readerAt] at ha⟩

/-- `ConstructionPlacesTheCursorAtTheStart`: exactly `MAX_WORDS` words on the last id, and one word more. -/
theorem witness_construction :
    1 < (machineOf (readerAt [] 0 0#6)).params.nReaders ∧
      ([0#64, 0#64, 0#64, 0#64] : List Word).length ≤ (machineOf (readerAt [] 0 0#6)).params.maxWords ∧
      (∀ k r, k ≠ 1 → (k, Slot.live r) ∈ (machineOf (readerAt [] 0 0#6)).readers → r.storage = 8 →
        r.words = [0#64, 0#64, 0#64, 0#64]) ∧
      (machineOf (readerAt [] 0 0#6)).params.maxWords < ([0#64, 0#64, 0#64, 0#64, 0#64] : List Word).length ∧
      refusal (perform (.construct 1 8 [0#64, 0#64, 0#64, 0#64, 0#64]) (machineOf (readerAt [] 0 0#6))) =
        some .tooManyWords := by
  refine ⟨by decide, by decide, fun k r hk hm hs => ?_, by decide, by decide⟩
  simp [machineOf] at hm
  rw [hm.2] at hs
  exact absurd hs (by decide)

/-- `RequestsNeedAMeaningfulReader`: each of the three ways. -/
theorem witness_no_meaningful_reader :
    ({ machineOf (readerAt [] 0 0#6) with target := 1 } : State).slot 1 = none ∧
      ((machineOf (readerAt [] 0 0#6)).setSlot 0 .destroyed).slot 0 = some .destroyed ∧
      (machineOf (readerAt [0#64] 1 1#6)).slot 0 = some (.live (readerAt [0#64] 1 1#6)) ∧
      ¬ (readerAt [0#64] 1 1#6).Ok := by decide

/-- `DestructionEndsALifetime`, `StorageWritesAreRefused`: a live reader, a word for a count, a new construction, and
other words for its storage. -/
theorem witness_live :
    (machineOf (readerAt [exampleWord] 0 0#6)).slot 0 = some (.live (readerAt [exampleWord] 0 0#6)) ∧
      presents 64 64#7 = true ∧ 1 < (machineOf (readerAt [exampleWord] 0 0#6)).params.nReaders ∧
      ([] : List Word) ≠ (readerAt [exampleWord] 0 0#6).words ∧
      completes (perform (.construct 0 9 []) ((machineOf (readerAt [exampleWord] 0 0#6)).setSlot 0 .destroyed)) = true := by
  decide

/-- `ErrorsHaveNoSideEffects`, `OutcomeOfARead`, `EveryRequestGivesOneResponse`: counts at the ends of their ranges, on a
reader with 32 bits left, and on an exhausted one. -/
theorem witness_errors :
    (machineOf (readerAt [exampleWord] 0 32#6)).Addresses (readerAt [exampleWord] 0 32#6) ∧
      (0 = 0 ∨ 64 < 0) ∧ (65 = 0 ∨ 64 < 65) ∧ (readerAt [exampleWord] 0 32#6).remaining < 33 ∧
      ¬ (readerAt [exampleWord] 0 32#6).remaining < 32 ∧ (readerAt [exampleWord] 1 0#6).remaining < 1 := by
  refine ⟨⟨rfl, by decide⟩, by decide, by decide, by decide, by decide, by decide⟩

/-- `ReadReturnsTheStream`: the read that takes exactly what is left. -/
theorem witness_available :
    (machineOf (readerAt [exampleWord] 0 32#6)).Addresses (readerAt [exampleWord] 0 32#6) ∧
      (readerAt [exampleWord] 0 32#6).position + 32 ≤ (readerAt [exampleWord] 0 32#6).len * 64 := by
  refine ⟨⟨rfl, by decide⟩, by decide⟩

/-- `ReadFrame`, `AccessesOfARead`, `ReadAdvancesByItsCount`, `ResultsAreRightAligned`: completed reads that fail, that end
in their word, and that straddle, the last of 63 bits. -/
theorem witness_completed :
    seen (exec (.read 0) (machineOf (readerAt [exampleWord, exampleWord] 0 60#6))) =
        some ((0, 60#6), some { status := .invalidBitCount, data := 0#64 }, []) ∧
      seen (exec (.read 4) (machineOf (readerAt [exampleWord, exampleWord] 0 60#6))) =
        some ((1, 0#6), some { status := .ok, data := 0#64 }, [0]) ∧
      completes (exec (.read 63) (machineOf (readerAt [exampleWord, exampleWord] 0 60#6))) = true ∧
      takeNext 60#6 4 = 0 ∧ 0 < takeNext 60#6 63 := by decide

/-- `ReadsConcatenate`: S3a to S3c of spec 95, and the greatest sum. -/
theorem witness_concatenation :
    (machineOf (readerAt [exampleWord, exampleWord] 1 40#6)).Addresses (readerAt [exampleWord, exampleWord] 1 40#6) ∧
      [2, 2, 4] ≠ [] ∧ (∀ n ∈ [2, 2, 4], 1 ≤ n) ∧ [2, 2, 4].sum ≤ 64 ∧
      (readerAt [exampleWord, exampleWord] 1 40#6).position + [2, 2, 4].sum ≤
        (readerAt [exampleWord, exampleWord] 1 40#6).len * 64 ∧ [1, 63].sum = 64 := by
  refine ⟨⟨rfl, by decide⟩, by decide, by decide, by decide, by decide, by decide⟩

/-- `ExhaustedReadersStayExhausted`. -/
theorem witness_exhausted :
    (machineOf (readerAt [exampleWord] 1 0#6)).Addresses (readerAt [exampleWord] 1 0#6) ∧
      (readerAt [exampleWord] 1 0#6).position = 64 * (readerAt [exampleWord] 1 0#6).len := by
  refine ⟨⟨rfl, by decide⟩, by decide⟩

/-- `TheWordBehindTheLastIsNotTouched`: the whole of what is left of the last word. -/
theorem witness_last_word :
    (machineOf (readerAt [exampleWord] 0 1#6)).Addresses (readerAt [exampleWord] 0 1#6) ∧
      (readerAt [exampleWord] 0 1#6).wordIndex + 1 = (readerAt [exampleWord] 0 1#6).len ∧
      63 ≤ leftover (readerAt [exampleWord] 0 1#6).bitsConsumed := by
  refine ⟨⟨rfl, by decide⟩, by decide, by decide⟩

/-- `CursorStateMoves`: each cursor state, and a count below, at and above what is left of the word. -/
theorem witness_cursor_states :
    (readerAt [exampleWord, exampleWord] 0 0#6).cursorState = .freshWord ∧
      (readerAt [exampleWord, exampleWord] 0 60#6).cursorState = .withinWord ∧
      (readerAt [exampleWord, exampleWord] 2 0#6).cursorState = .exhausted ∧
      (machineOf (readerAt [exampleWord, exampleWord] 0 60#6)).Addresses (readerAt [exampleWord, exampleWord] 0 60#6) ∧
      3 < leftover 60#6 ∧ 4 = leftover 60#6 ∧ leftover 60#6 < 5 ∧
      64 ≤ (readerAt [exampleWord, exampleWord] 0 60#6).remaining := by
  refine ⟨by decide, by decide, by decide, ⟨rfl, by decide⟩, by decide, by decide, by decide, by decide⟩

/-- `SixtyFourBitReads`: at the start of a word, inside one with a next word, and inside the last one. -/
theorem witness_sixty_four :
    (machineOf (readerAt [exampleWord, 5#64] 0 0#6)).Addresses (readerAt [exampleWord, 5#64] 0 0#6) ∧
      (readerAt [exampleWord, 5#64] 0 4#6).words[0]? = some exampleWord ∧
      (readerAt [exampleWord, 5#64] 0 4#6).words[0 + 1]? = some 5#64 ∧
      (readerAt [exampleWord, 5#64] 1 4#6).words[1 + 1]? = none ∧ (4#6 : BitOffset) ≠ 0#6 := by
  refine ⟨⟨rfl, by decide⟩, by decide, by decide, by decide, by decide⟩

/-- `ErrorsDoNotAffectLaterRequests`: a read that completes with an error. -/
theorem witness_error_then :
    ∃ t, exec (.read 33) (machineOf (readerAt [exampleWord] 0 32#6)) = .next t ∧
      ∃ r, t.slot 0 = some (.live r) ∧ ∀ d, r.lastResponse ≠ some { status := .ok, data := d } := by
  refine ⟨_, rfl, _, rfl, fun d => ?_⟩
  rw [show ((readerAt [exampleWord] 0 32#6).raise 33 .endOfStream).lastResponse =
    some { status := .endOfStream, data := 0#64 } from rfl]
  simp

/-- `SplitRanges`, `ExtractorCombinesItsParts`, `CursorAdvanceForms`, `PartsOfAResultAreDisjoint`, `NoShiftByTheWidth`: the
clauses at the ends of the ranges. -/
theorem witness_split_clauses :
    takeCur 0#6 64 = 64 ∧ 0 < takeNext 1#6 64 ∧ takeNext 0#6 64 = 0 ∧ (63#6 : BitOffset).toNat + 1 = 64 ∧
      takeCur 63#6 1 = leftover 63#6 ∧ takeNext 63#6 1 = 0 ∧ takeCur 62#6 1 < leftover 62#6 := by decide

/-- `ExtractorMeetsTheDeclarativeForm`: a read that fills its word, and one that straddles by one bit. -/
theorem witness_extractor :
    ([exampleWord, 5#64] : Memory)[0]? = some exampleWord ∧ ([exampleWord, 5#64] : Memory)[0 + 1]? = some 5#64 ∧
      (32#6 : BitOffset).toNat + 32 ≤ 64 ∧ 64 < (32#6 : BitOffset).toNat + 33 := by decide

/-- `MaskHasTheLowBits`, `IndexWidthIsLeast`: the ends of the ranges. -/
theorem witness_mask_and_width : 64 ≤ 64 ∧ 63 < 64 ∧ idxW 0 = 1 ∧ idxW 3 = 2 ∧ idxW 4 = 3 := by decide

/-- `AvailabilityInIndexWidth`, `OutputsShowTheRegisters`: a reader that meets the invariant, and the greatest word. -/
theorem witness_invariant_reader :
    (machineOf (readerAt [exampleWord] 0 63#6)).Inv ∧
      (machineOf (readerAt [exampleWord] 0 63#6)).slot 0 = some (.live (readerAt [exampleWord] 0 63#6)) ∧ 127 < 128 :=
  ⟨machineOf_inv (by decide) (by decide), by decide, by decide⟩

/-- `StepRunsTheDecodedRequest`: a request that stands for its count, a table word that is one, and no action at all. -/
theorem witness_requests :
    ((machineOf (readerAt [] 0 0#6)).presentNext 64#7).pending = [.request 0 64 64#7] ∧ presents 64 64#7 = true ∧
      decodeTableWord 7 0x40 = some (.read 64) ∧ (machineOf (readerAt [] 0 0#6)).pending = [] := by decide

/-- `DestructionEndsALifetime`: a destroyed instance, and a step that takes an action which is no construction of it. -/
theorem witness_destroyed :
    (((machineOf (readerAt [exampleWord] 0 0#6)).setSlot 1 .destroyed).presentNext 8#7).slot 1 = some .destroyed ∧
      completes (step (((machineOf (readerAt [exampleWord] 0 0#6)).setSlot 1 .destroyed).presentNext 8#7)) = true ∧
      (((machineOf (readerAt [exampleWord] 0 0#6)).setSlot 1 .destroyed).presentNext 8#7).pending =
        [.request 0 8 8#7] := by decide

/-- `DutifulActionsComplete`: actions that keep the host's duties, each completing, and the breaches, each refused. -/
theorem witness_duties :
    (HostAction.request 0 64 64#7).Dutiful (machineOf (readerAt [] 0 0#6)) ∧
      (HostAction.observe 0).Dutiful (machineOf (readerAt [] 0 0#6)) ∧
      ¬ (HostAction.overlappingRequest 0 1#7).Dutiful (machineOf (readerAt [] 0 0#6)) ∧
      completes (perform (.construct 1 7 []) (machineOf (readerAt [] 0 0#6))) = true ∧
      completes (perform (.destroy 0) (machineOf (readerAt [] 0 0#6))) = true ∧
      completes (perform (.writeStorage 8 0 1#64) (machineOf (readerAt [] 0 0#6))) = true ∧
      refusal (perform (.writeStorage 7 0 1#64) (machineOf (readerAt [] 0 0#6))) = some .storageModified ∧
      refusal (perform (.request 0 129 1#7) (machineOf (readerAt [] 0 0#6))) = some .countMisrepresented ∧
      refusal (perform (.construct 2 7 []) (machineOf (readerAt [] 0 0#6))) = some .noSuchReader := by
  refine ⟨⟨⟨_, rfl⟩, by decide⟩, trivial, fun h => h, by decide, by decide, by decide, by decide, by decide, by decide⟩

/-- `OnlyConstructionAndReadsMoveTheCursor`, `StorageIsImmutableForALifetime`: a step over which an instance lives and its
cursor moves. -/
theorem witness_cursor_moves :
    seen (step ((machineOf (readerAt [exampleWord] 0 4#6)).presentNext 8#7)) =
        some ((0, 12#6), some { status := .ok, data := 0x20#64 }, [0]) ∧
      ((machineOf (readerAt [exampleWord] 0 4#6)).presentNext 8#7).pending.head? ≠ some (.construct 0 7 []) := by decide

/-- `ReadersAreIndependent`: two live readers that share a storage, with requests to both; step 3 of program P4 of spec
95 is its third request. -/
theorem witness_two_readers :
    seen (performAll [.request 0 3 3#7, .request 1 64 64#7, .request 0 62 62#7]
        ((machineOf (readerAt [0xAAAAAAAAAAAAAAAA#64, 0x5555555555555555#64] 0 0#6)).setSlot 1
          (.live (readerAt [0xAAAAAAAAAAAAAAAA#64, 0x5555555555555555#64] 0 0#6)))) =
      some ((1, 1#6), some { status := .ok, data := 0x3555555555555555#64 }, [0, 0, 1]) := by decide

/-- `OnlyTheBlockStateMatters`: two machines with the same block state and different records. -/
theorem witness_same_block :
    (readerAt [exampleWord] 0 4#6).block = ((readerAt [exampleWord] 0 4#6).raise 0 .invalidBitCount).block ∧
      (readerAt [exampleWord] 0 4#6) ≠ ((readerAt [exampleWord] 0 4#6).raise 0 .invalidBitCount) ∧
      (machineOf ((readerAt [exampleWord] 0 4#6).raise 0 .invalidBitCount)).Addresses
        ((readerAt [exampleWord] 0 4#6).raise 0 .invalidBitCount) := by
  refine ⟨by decide, by decide, rfl, by decide⟩

end Sys2Proof.Tests
end

section
/-! `IDX_W` and the values it holds (spec 00, R9). -/

namespace Sys2Proof.Machine

theorem one_le_idxW (m : Nat) : 1 ≤ idxW m :=
  Nat.le_add_left 1 (Nat.log2 m)

/-- Which widths hold `m`: exactly those from `idxW m` up. Width 0 is left out because it holds the number 0, while
`idxW 0` is 1 (spec 00, R9). -/
theorem idxW_le_iff {m w : Nat} (hw : 1 ≤ w) : idxW m ≤ w ↔ m < 2 ^ w := by
  rw [idxW, Nat.succ_le_iff, Nat.log2_eq_log_two]
  constructor
  · exact Nat.lt_pow_of_log_lt Nat.one_lt_two
  · exact Nat.log_lt_of_lt_pow' (Nat.one_le_iff_ne_zero.mp hw)

theorem lt_two_pow_idxW (m : Nat) : m < 2 ^ idxW m :=
  (idxW_le_iff (one_le_idxW m)).mp le_rfl

/-- Settles O33: `idxW m` bounds from below the widths of at least one bit that hold `m`, and is one of them. -/
theorem indexWidthIsLeast : Obligations.IndexWidthIsLeast := by
  intro m
  exact ⟨one_le_idxW m, lt_two_pow_idxW m, fun _ hw hm => (idxW_le_iff hw).mpr hm⟩

end Sys2Proof.Machine
end

section
/-! What one step can make of one entry of the table, and the invariant over every step (spec 10, R18). -/

namespace Sys2Proof.Machine

/-- Which entries stand in the table after one is written. -/
theorem State.slot_setSlot_eq_some {s : State} {id j : Nat} {x y : Slot} :
    (s.setSlot id x).slot j = some y ↔ (j = id ∧ x = y) ∨ (j ≠ id ∧ s.slot j = some y) := by
  rw [State.slot_setSlot]
  split_ifs with h <;> simp [h]

/-- A request that completes raised the error of its checks, or had none and read. -/
theorem readOn_next {id n : Nat} {r r' : Reader} (hr : r.Ok) (h : readOn id n r = .next r') :
    (∃ e, requestError r n = some e ∧ r' = r.raise n e) ∨
      (requestError r n = none ∧ r' = r.afterRead id n) := by
  rcases readOn_cases id n hr with ⟨e, he, hread⟩ | ⟨hn, hread⟩
  · rw [hread] at h; cases h; exact .inl ⟨e, he, rfl⟩
  · rw [hread] at h; cases h; exact .inr ⟨hn, rfl⟩

/-- What the host's next action is to one id: a construction of it, a request to it, or neither. -/
theorem step_live {s t : State} {id : Nat} {r' : Reader} (h : step s = .next t)
    (ht : t.slot id = some (.live r')) :
    (∃ storage ws rest, s.pending = .construct id storage ws :: rest ∧ r' = Reader.construct storage ws) ∨
      (∃ count word rest r, s.pending = .request id count word :: rest ∧ s.slot id = some (.live r) ∧ r.Ok ∧
        readOn id word.toNat r = .next r') ∨
      ((∀ storage ws rest, s.pending ≠ .construct id storage ws :: rest) ∧
        (∀ count word rest, s.pending ≠ .request id count word :: rest) ∧ s.slot id = some (.live r')) := by
  rcases step_next h with ⟨hp, rfl⟩ | ⟨a, rest, hp, ha⟩
  · exact .inr (.inr ⟨by simp [hp], by simp [hp], ht⟩)
  rcases perform_next ha with ⟨k, storage, ws, rfl, -, -, -, rfl⟩ |
    ⟨k, count, word, q, q', rfl, -, hq, hok, hread, rfl⟩ | ⟨k, q, rfl, -, rfl⟩ | ⟨hother, rfl⟩
  case inl =>
    rcases State.slot_setSlot_eq_some.1 ht with ⟨rfl, hlive⟩ | ⟨hne, hlive⟩
    · cases hlive; exact .inl ⟨storage, ws, rest, hp, rfl⟩
    · exact .inr (.inr ⟨by simp [hp, hne.symm], by simp [hp], hlive⟩)
  case inr.inl =>
    rcases State.slot_setSlot_eq_some.1 ht with ⟨rfl, hlive⟩ | ⟨hne, hlive⟩
    · cases hlive; exact .inr (.inl ⟨count, word, rest, q, hp, hq, hok, hread⟩)
    · exact .inr (.inr ⟨by simp [hp], by simp [hp, hne.symm], hlive⟩)
  case inr.inr.inl =>
    rcases State.slot_setSlot_eq_some.1 ht with ⟨-, hlive⟩ | ⟨-, hlive⟩
    · cases hlive
    · exact .inr (.inr ⟨by simp [hp], by simp [hp], hlive⟩)
  case inr.inr.inr =>
    rcases hother with ⟨k, rfl⟩ | ⟨storage, index, value, rfl, -⟩
    · exact .inr (.inr ⟨by simp [hp], by simp [hp], ht⟩)
    · exact .inr (.inr ⟨by simp [hp], by simp [hp], ht⟩)

/-- A reader that may stand under `id` in the machine: it meets spec 10, R15 and R18, and every other reader over
its storage holds its words (spec 20, R36). -/
structure State.CanHold (s : State) (id : Nat) (q : Reader) : Prop where
  ok : q.Ok
  lenBound : q.len ≤ s.params.maxWords
  shared : ∀ k r, k ≠ id → s.slot k = some (.live r) → r.storage = q.storage → r.words = q.words

/-- The invariant says nothing of the request port in use, nor of what the host does next. -/
theorem State.Inv.withPort {s : State} (h : s.Inv) (id : Nat) (l : List HostAction) :
    ({ s with target := id, pending := l } : State).Inv :=
  ⟨h.table, h.readerOk, h.lenBound, h.idBound, h.shared⟩

/-- Writing one entry keeps the invariant when the reader written, if any, may stand there. -/
theorem State.Inv.setSlot {s : State} (h : s.Inv) {id : Nat} {x : Slot} (hid : id < s.params.nReaders)
    (hx : ∀ q, x = .live q → s.CanHold id q) : (s.setSlot id x).Inv where
  table := insertSlot_wf h.table id x
  readerOk := by
    intro j r hj
    rcases State.slot_setSlot_eq_some.1 hj with ⟨-, hr⟩ | ⟨-, hr⟩
    · exact (hx r hr).ok
    · exact h.readerOk j r hr
  lenBound := by
    intro j r hj
    rcases State.slot_setSlot_eq_some.1 hj with ⟨-, hr⟩ | ⟨-, hr⟩
    · exact (hx r hr).lenBound
    · exact h.lenBound j r hr
  idBound := by
    intro j y hj
    rcases State.slot_setSlot_eq_some.1 hj with ⟨rfl, -⟩ | ⟨-, hy⟩
    · exact hid
    · exact h.idBound j y hy
  shared := by
    intro j k r r' hj hk hst
    rcases State.slot_setSlot_eq_some.1 hj with ⟨-, hr⟩ | ⟨hne, hr⟩ <;>
      rcases State.slot_setSlot_eq_some.1 hk with ⟨-, hr'⟩ | ⟨hne', hr'⟩
    · cases hr; cases hr'; rfl
    · exact ((hx r hr).shared k r' hne' hr' hst.symm).symm
    · exact (hx r' hr').shared j r hne hr hst
    · exact h.shared j k r r' hr hr' hst

/-- A construction that is not refused gives a reader that may stand there. -/
theorem State.canHold_construct {s : State} {id storage : Nat} {ws : List Word} (hlen : ws.length ≤ s.params.maxWords)
    (hc : storageConflict id storage ws s.readers = false) : s.CanHold id (Reader.construct storage ws) :=
  ⟨⟨rfl, Nat.zero_le _, fun _ => rfl⟩, hlen, fun _ _ hk hr hst => State.words_of_no_conflict hc hk hr hst⟩

/-- A request leaves a reader that may stand in the place of the old one. -/
theorem State.Inv.canHold_readOn {s : State} (h : s.Inv) {id n : Nat} {r r' : Reader} (hr : s.slot id = some (.live r))
    (hread : readOn id n r = .next r') : s.CanHold id r' := by
  have hok := h.readerOk id r hr
  obtain ⟨hwords, hlen, hstorage, -⟩ := readOn_keeps_memory hok hread
  refine ⟨readOn_keeps_ok hok hread, hlen ▸ h.lenBound id r hr, fun k q _ hq hst => ?_⟩
  rw [hwords]
  exact h.shared k id q r hq hr (hst.trans hstorage)

/-- Every action of the host that completes keeps the invariant. -/
theorem perform_keeps_inv {a : HostAction} {s t : State} (hs : s.Inv) (h : perform a s = .next t) : t.Inv := by
  rcases perform_next h with ⟨id, storage, ws, -, hid, hlen, hc, rfl⟩ |
    ⟨id, count, word, r, r', -, -, hr, -, hread, rfl⟩ | ⟨id, r, -, hr, rfl⟩ | ⟨-, rfl⟩
  · exact hs.setSlot hid fun q hq => by cases hq; exact State.canHold_construct hlen hc
  · have hport := hs.withPort id s.pending
    exact hport.setSlot (hs.idBound id _ hr) fun q hq => by cases hq; exact hport.canHold_readOn hr hread
  · exact hs.setSlot (hs.idBound id _ hr) fun q hq => by cases hq
  · exact hs

/-- Settles O7: a step does nothing or performs the host's next action, and each action keeps the invariant. -/
theorem everyStepKeepsTheInvariant : Obligations.EveryStepKeepsTheInvariant := by
  intro s t hs h
  rcases step_next h with ⟨-, rfl⟩ | ⟨a, rest, -, ha⟩
  · exact hs
  · exact perform_keeps_inv (hs.withPort s.target rest) ha

end Sys2Proof.Machine
end

section
/-! The position, the cursor and the storage of a reader over a request and over a step (spec 10, R15, R18, R20). -/

namespace Sys2Proof.Machine

/-- The response of an error is never that of a success (spec 30, R45). -/
theorem Reader.raise_lastResponse_ne_ok (r : Reader) (n : Nat) (e : ErrorKind) (d : Word) :
    (r.raise n e).lastResponse ≠ some { status := .ok, data := d } := by
  rw [Reader.raise_lastResponse]
  cases e <;> simp [ErrorKind.status]

theorem Reader.raise_cursor (r : Reader) (n : Nat) (e : ErrorKind) : (r.raise n e).cursor = r.cursor := rfl

/-- What a completed request does to the position: a success adds its count, an error leaves the cursor. -/
theorem readOn_position {id n : Nat} {r r' : Reader} (hr : r.Ok) (h : readOn id n r = .next r') :
    ((∃ d, r'.lastResponse = some { status := .ok, data := d }) ∧ r'.position = r.position + n) ∨
      ((∀ d, r'.lastResponse ≠ some { status := .ok, data := d }) ∧ r'.cursor = r.cursor) := by
  rcases readOn_next hr h with ⟨e, -, rfl⟩ | ⟨hn, rfl⟩
  · exact .inr ⟨r.raise_lastResponse_ne_ok n e, r.raise_cursor n e⟩
  · obtain ⟨-, hn64, -⟩ := requestError_eq_none.1 hn
    exact .inl ⟨⟨_, r.afterRead_lastResponse id n⟩, r.afterRead_position id hn64⟩

/-- Settles O17: the reader addressed made the step of the request, which adds the count or leaves the cursor. -/
theorem readAdvancesByItsCount : Obligations.ReadAdvancesByItsCount := by
  intro n s t r r' h hr hr'
  obtain ⟨m, q, q', hm, ⟨hq, hok⟩, hread, rfl⟩ := exec_next h
  cases hm
  rw [hr] at hq; cases hq
  rw [State.slot_setSlot_same] at hr'; cases hr'
  exact readOn_position hok hread

/-- Settles O41: the three cases are those of what a step is to one id, a request's divided by its outcome. -/
theorem onlyConstructionAndReadsMoveTheCursor : Obligations.OnlyConstructionAndReadsMoveTheCursor := by
  intro s t id r r' h hr hr'
  rcases step_live h hr' with ⟨storage, ws, rest, hp, rfl⟩ | ⟨count, word, rest, q, hp, hq, hok, hread⟩ |
    ⟨hnc, hnr, hheld⟩
  · exact .inl ⟨storage, ws, rest, hp, rfl⟩
  · rw [hr] at hq; cases hq
    rcases readOn_position hok hread with ⟨⟨d, hd⟩, hpos⟩ | ⟨hfail, hcur⟩
    · exact .inr (.inl ⟨count, word, rest, d, hp, hd, hpos⟩)
    · exact .inr (.inr ⟨by simp [hp], fun _ _ _ _ => hfail, hcur⟩)
  · rw [hr] at hheld; cases hheld
    exact .inr (.inr ⟨hnc, fun count word rest hp => absurd hp (hnr count word rest), rfl⟩)

/-- Settles O42: a request keeps words, length and label, and no other step but a construction touches the reader. -/
theorem storageIsImmutableForALifetime : Obligations.StorageIsImmutableForALifetime := by
  intro s t id r r' h hr hr' hnc
  rcases step_live h hr' with ⟨storage, ws, rest, hp, -⟩ | ⟨count, word, rest, q, -, hq, hok, hread⟩ |
    ⟨-, -, hheld⟩
  · exact absurd hp (hnc storage ws rest)
  · rw [hr] at hq; cases hq
    obtain ⟨hwords, hlen, hstorage, -⟩ := readOn_keeps_memory hok hread
    exact ⟨hlen, hstorage, fun a => by rw [hwords]⟩
  · rw [hr] at hheld; cases hheld
    exact ⟨rfl, rfl, fun _ => rfl⟩

end Sys2Proof.Machine
end

section
/-! The three cursor states and how a read moves between them (spec 10, R21). -/

namespace Sys2Proof.Machine

theorem Reader.cursorState_eq_exhausted {r : Reader} : r.cursorState = .exhausted ↔ r.wordIndex = r.len := by
  unfold Reader.cursorState
  split_ifs with hend hzero <;> simp [hend]

theorem Reader.cursorState_eq_freshWord {r : Reader} :
    r.cursorState = .freshWord ↔ r.wordIndex ≠ r.len ∧ r.bitsConsumed = 0#6 := by
  unfold Reader.cursorState
  split_ifs with hend hzero
  · simp [hend]
  · simp [hend, hzero]
  · simp [hzero]

/-- In a state of spec 10, R18, the offset alone tells whether the cursor is inside a word. -/
theorem Reader.Ok.cursorState_eq_withinWord {r : Reader} (h : r.Ok) :
    r.cursorState = .withinWord ↔ 0 < r.bitsConsumed.toNat := by
  obtain ⟨-, -, hend⟩ := h
  rw [Nat.pos_iff_ne_zero, ne_eq, ← bitOffset_eq_zero]
  unfold Reader.cursorState
  split_ifs with hlast hzero
  · simp [hend hlast]
  · simp [hzero]
  · simp [hzero]

/-- An advance that ends before the end of the current word (spec 40, R52). -/
theorem advance_of_lt_leftover {wi n : Nat} {c : BitOffset} (h : n < leftover c) :
    (advance wi c n).1 = wi ∧ (advance wi c n).2.toNat = c.toNat + n := by
  unfold leftover at h
  have hlt : c.toNat + n < 64 := by omega
  rw [advance, if_pos hlt]
  exact ⟨rfl, Nat.mod_eq_of_lt hlt⟩

/-- An advance that reaches the end of the current word, or goes past it (spec 40, R52). -/
theorem advance_of_leftover_le {wi n : Nat} {c : BitOffset} (h : leftover c ≤ n) (hn : n ≤ 64) :
    (advance wi c n).1 = wi + 1 ∧ (advance wi c n).2.toNat = n - leftover c := by
  have hc := c.isLt
  unfold leftover at h ⊢
  rw [advance, if_neg (by omega)]
  refine ⟨rfl, ?_⟩
  rw [BitVec.toNat_ofNat]
  omega

/-- The checks a read of an exhausted reader fails (spec 60, R63). -/
theorem requestError_of_exhausted {r : Reader} {n : Nat} (h : r.cursorState = .exhausted) (h1 : 1 ≤ n)
    (h64 : n ≤ 64) : requestError r n = some .endOfStream := by
  have hend := Reader.cursorState_eq_exhausted.1 h
  refine requestError_eq_end.2 ⟨h1, h64, ?_⟩
  rw [Reader.position_eq, hend]
  omega

/-- A valid count within the bits that remain passes the checks (spec 10, R19). -/
theorem requestError_of_le_remaining {r : Reader} {n : Nat} (h1 : 1 ≤ n) (h64 : n ≤ 64) (h : n ≤ r.remaining) :
    requestError r n = none := by
  unfold Reader.remaining at h
  exact requestError_eq_none.2 ⟨h1, h64, by omega⟩

/-- The cursor states divide the states of spec 10, R18, as R21 describes them. -/
theorem Reader.Ok.cursorState_cases {r : Reader} (h : r.Ok) :
    (r.cursorState = .freshWord ↔ r.bitsConsumed = 0#6 ∧ r.wordIndex < r.len) ∧
    (r.cursorState = .withinWord ↔ 0 < r.bitsConsumed.toNat) ∧
    (r.cursorState = .withinWord → r.wordIndex < r.len) ∧
    (r.cursorState = .exhausted ↔ r.wordIndex = r.len) ∧
    (r.cursorState = .exhausted → r.bitsConsumed = 0#6) := by
  have hlt : r.wordIndex ≠ r.len ↔ r.wordIndex < r.len := (Nat.lt_iff_le_and_ne.trans (and_iff_right h.2.1)).symm
  refine ⟨?_, h.cursorState_eq_withinWord, fun hw => hlt.1 fun hend => ?_, cursorState_eq_exhausted,
    fun he => h.2.2 (cursorState_eq_exhausted.1 he)⟩
  · rw [cursorState_eq_freshWord, hlt, and_comm]
  · rw [cursorState_eq_exhausted.2 hend] at hw
    cases hw

/-- How a successful read moves the cursor: by where its count lies to what is left of the word. -/
theorem Reader.Ok.afterRead_moves {r : Reader} {id n : Nat} (hok : (r.afterRead id n).Ok) (h1 : 1 ≤ n)
    (h64 : n ≤ 64) :
    (n < leftover r.bitsConsumed →
      (r.afterRead id n).cursorState = .withinWord ∧ (r.afterRead id n).wordIndex = r.wordIndex) ∧
    (n = leftover r.bitsConsumed → (r.afterRead id n).wordIndex = r.wordIndex + 1 ∧
      (r.afterRead id n).cursorState = if r.wordIndex + 1 = r.len then .exhausted else .freshWord) ∧
    (leftover r.bitsConsumed < n → (r.afterRead id n).cursorState = .withinWord ∧
      (r.afterRead id n).wordIndex = r.wordIndex + 1 ∧
      (r.afterRead id n).bitsConsumed.toNat = n - leftover r.bitsConsumed) := by
  refine ⟨fun h => ?below, fun h => ?equal, fun h => ?above⟩
  case below =>
    obtain ⟨hwi, hbc⟩ := advance_of_lt_leftover (wi := r.wordIndex) h
    exact ⟨hok.cursorState_eq_withinWord.2 (hbc ▸ by omega), hwi⟩
  case equal =>
    obtain ⟨hwi, hbc⟩ := advance_of_leftover_le (wi := r.wordIndex) h.ge h64
    have hzero := bitOffset_eq_zero.2 (hbc.trans (Nat.sub_eq_zero_of_le h.le))
    exact ⟨hwi, by simp [Reader.cursorState, hwi, hzero]⟩
  case above =>
    obtain ⟨hwi, hbc⟩ := advance_of_leftover_le (wi := r.wordIndex) h.le h64
    exact ⟨hok.cursorState_eq_withinWord.2 (hbc ▸ by omega), hwi, hbc⟩

/-- Settles O22: the states by their definition, the moves by the advance of the cursor. -/
theorem cursorStateMoves : Obligations.CursorStateMoves := by
  refine ⟨fun r hr => hr.cursorState_cases, fun n s r hs h1 h64 => ⟨fun hend => ?_, fun _ hrem => ?_⟩⟩
  · have hread := readOn_error (id := s.target) (requestError_of_exhausted hend h1 h64)
    exact ⟨_, _, exec_read hs hread, State.slot_setSlot_same .., r.raise_lastResponse n .endOfStream⟩
  · have hread := readOn_success (id := s.target) hs.2 (requestError_of_le_remaining h1 h64 hrem)
    exact ⟨_, _, exec_read hs hread, State.slot_setSlot_same ..,
      (readOn_keeps_ok hs.2 hread).afterRead_moves h1 h64⟩

end Sys2Proof.Machine
end

section
/-! A request sees the block state only (spec 10, R14; 20, R27). -/

namespace Sys2Proof.Machine

/-- Equal block states are equal in each register and in the words. -/
theorem Reader.block_eq_iff {r q : Reader} :
    r.block = q.block ↔
      r.words = q.words ∧ r.len = q.len ∧ r.wordIndex = q.wordIndex ∧ r.bitsConsumed = q.bitsConsumed := by
  simp [Reader.block]

theorem Reader.raise_block (r : Reader) (n : Nat) (e : ErrorKind) : (r.raise n e).block = r.block := rfl

section SameBlock

variable {r q : Reader} (h : r.block = q.block)
include h

theorem Reader.position_of_block_eq : r.position = q.position := by
  obtain ⟨-, -, hwi, hbc⟩ := Reader.block_eq_iff.1 h
  rw [Reader.position_eq, Reader.position_eq, hwi, hbc]

theorem requestError_of_block_eq (n : Nat) : requestError r n = requestError q n := by
  obtain ⟨-, hlen, hwi, hbc⟩ := Reader.block_eq_iff.1 h
  rw [requestError, requestError, hlen, hwi, hbc]

theorem Reader.afterRead_block_of_block_eq (id id' n : Nat) :
    (r.afterRead id n).block = (q.afterRead id' n).block := by
  obtain ⟨hwords, hlen, hwi, hbc⟩ := Reader.block_eq_iff.1 h
  exact Reader.block_eq_iff.2 ⟨hwords, hlen, by simp [hwi, hbc], by simp [hwi, hbc]⟩

theorem Reader.afterRead_lastResponse_of_block_eq (id id' n : Nat) :
    (r.afterRead id n).lastResponse = (q.afterRead id' n).lastResponse := by
  obtain ⟨hwords, -, -, -⟩ := Reader.block_eq_iff.1 h
  rw [Reader.afterRead_lastResponse, Reader.afterRead_lastResponse, hwords, Reader.position_of_block_eq h]

end SameBlock

/-- Settles O45: the checks, the data and the new cursor are functions of the block state. -/
theorem onlyTheBlockStateMatters : Obligations.OnlyTheBlockStateMatters := by
  intro n s s' r r' hs hs' hb
  cases he : requestError r n with
  | some e =>
    have he' := (requestError_of_block_eq hb n).symm.trans he
    refine ⟨_, _, _, _, exec_read hs (readOn_error he), exec_read hs' (readOn_error he'),
      State.slot_setSlot_same .., State.slot_setSlot_same .., ?_, ?_⟩
    · rwa [Reader.raise_block, Reader.raise_block]
    · rw [Reader.raise_lastResponse, Reader.raise_lastResponse]
  | none =>
    have he' := (requestError_of_block_eq hb n).symm.trans he
    exact ⟨_, _, _, _, exec_read hs (readOn_success hs.2 he), exec_read hs' (readOn_success hs'.2 he'),
      State.slot_setSlot_same .., State.slot_setSlot_same .., Reader.afterRead_block_of_block_eq hb _ _ n,
      Reader.afterRead_lastResponse_of_block_eq hb _ _ n⟩

end Sys2Proof.Machine
end

section
/-! What a request adds to the record of its reader, and the record over every step (spec 20, R27, R31, R32, R35; 30,
R44). -/

namespace Sys2Proof.Machine

/-- A property of single readers holds after a step when it holds before it, after a construction, and after every
request to a reader that has it. -/
theorem step_keeps_each_reader {P : Nat → Reader → Prop} {s t : State} (h : step s = .next t)
    (hconstruct : ∀ id storage ws, P id (Reader.construct storage ws))
    (hread : ∀ id n r r', r.Ok → P id r → readOn id n r = .next r' → P id r')
    (hs : ∀ id r, s.slot id = some (.live r) → P id r) : ∀ id r, t.slot id = some (.live r) → P id r := by
  intro id r' ht
  rcases step_live h ht with ⟨storage, ws, -, -, rfl⟩ | ⟨-, word, -, r, -, hr, hok, hr'⟩ | ⟨-, -, hheld⟩
  · exact hconstruct id storage ws
  · exact hread id word.toNat r r' hok (hs id r hr) hr'
  · exact hs id r' hheld

/-- A request counts as one, keeps the events recorded, and adds one response, for its own count. -/
theorem readOn_record {id n : Nat} {r r' : Reader} (hr : r.Ok) (h : readOn id n r = .next r') :
    r'.requestSeq = r.requestSeq + 1 ∧ r.accesses <+: r'.accesses ∧
      ∃ x, x.count = n ∧ r'.transactions = r.transactions ++ [x] := by
  rcases readOn_next hr h with ⟨e, -, rfl⟩ | ⟨-, rfl⟩
  · exact ⟨rfl, List.prefix_rfl, _, rfl, r.raise_transactions n e⟩
  · exact ⟨rfl, List.prefix_append .., _, rfl, rfl⟩

theorem Reader.readEvents_of_takeNext_eq_zero {r : Reader} {n : Nat} (id : Nat) (h : takeNext r.bitsConsumed n = 0) :
    r.readEvents id n = [{ reader := id, requestSeq := r.requestSeq, index := r.wordIndex }] := by
  have hwithin : ¬ 64 < r.bitsConsumed.toNat + n := by rw [← takeNext_pos_iff, h]; exact Nat.lt_irrefl 0
  rw [Reader.readEvents, if_neg hwithin]

theorem Reader.readEvents_of_takeNext_pos {r : Reader} {n : Nat} (id : Nat) (h : 0 < takeNext r.bitsConsumed n) :
    r.readEvents id n =
      [{ reader := id, requestSeq := r.requestSeq, index := r.wordIndex },
       { reader := id, requestSeq := r.requestSeq, index := r.wordIndex + 1 }] := by
  rw [Reader.readEvents, if_pos ((takeNext_pos_iff _ _).1 h)]

/-- The events of a read that passes its checks are of this instance and this request, inside the storage. -/
theorem Reader.of_mem_readEvents {r : Reader} {id n : Nat} {a : Access} (hn : requestError r n = none)
    (ha : a ∈ r.readEvents id n) : a.reader = id ∧ a.requestSeq = r.requestSeq ∧ a.index < r.len := by
  obtain ⟨h1, -, hend⟩ := requestError_eq_none.1 hn
  rw [Reader.position_eq] at hend
  rcases List.mem_cons.1 ha with rfl | hnext
  · exact ⟨rfl, rfl, show r.wordIndex < r.len by omega⟩
  · split_ifs at hnext with hstraddle
    · obtain rfl := List.mem_singleton.1 hnext
      exact ⟨rfl, rfl, show r.wordIndex + 1 < r.len by omega⟩
    · cases hnext

theorem Reader.construct_recorded (id storage : Nat) (ws : List Word) : (Reader.construct storage ws).Recorded id :=
  ⟨rfl, by simp⟩

/-- A request keeps the form of its reader's record. -/
theorem readOn_keeps_recorded {id n : Nat} {r r' : Reader} (hr : r.Ok) (hrec : r.Recorded id)
    (h : readOn id n r = .next r') : r'.Recorded id := by
  obtain ⟨hcount, hold⟩ := hrec
  obtain ⟨hseq, -, x, -, htrans⟩ := readOn_record hr h
  have hearlier : ∀ a ∈ r.accesses, a.reader = id ∧ a.requestSeq < r.requestSeq + 1 ∧ a.index < r.len := by
    intro a ha
    obtain ⟨hid, hlt, hidx⟩ := hold a ha
    exact ⟨hid, Nat.lt_succ_of_lt hlt, hidx⟩
  refine ⟨by rw [htrans, hseq, List.length_append, hcount, List.length_singleton], fun a ha => ?_⟩
  rcases readOn_next hr h with ⟨e, -, rfl⟩ | ⟨hn, rfl⟩
  · exact hearlier a ha
  · rcases List.mem_append.1 ha with hmem | hnew
    · exact hearlier a hmem
    · obtain ⟨hid, heq, hidx⟩ := Reader.of_mem_readEvents hn hnew
      exact ⟨hid, Nat.lt_succ_of_le heq.le, hidx⟩

/-- Settles O37: a construction begins an empty record, and a request adds only events of its own below `len`. -/
theorem accessesStayInsideTheStorage : Obligations.AccessesStayInsideTheStorage := by
  intro s t _ hs h
  exact step_keeps_each_reader h Reader.construct_recorded (fun _ _ _ _ => readOn_keeps_recorded) hs

/-- Inside the storage every stream bit exists (spec 20, R28). -/
theorem streamBit_of_lt {words : Memory} {k : Nat} (h : k < words.length * 64) :
    streamBit words k = some ((streamBit words k).getD false) := by
  have hk : k / 64 < words.length := by omega
  simp [streamBit, List.getElem?_eq_getElem hk]

/-- What a successful response delivers is the stretch of the stream it stands for. -/
theorem Transaction.bits_of_streamSum {words : Memory} {p n : Nat} (hn : n ≤ 64) (h : p + n ≤ words.length * 64) :
    Transaction.bits { count := n, response := { status := .ok, data := streamSum words p n } } =
      streamBits words p n := by
  refine List.map_congr_left fun j hj => ?_
  have hj : j < n := List.mem_range.1 hj
  rw [streamBit_of_lt (k := p + j) (by omega), streamSum_getLsbD words p hn, decide_eq_true hj, Bool.true_and]

/-- An error delivers no bit (spec 30, R44). -/
theorem Reader.raise_delivered (r : Reader) (n : Nat) (e : ErrorKind) : (r.raise n e).delivered = r.delivered := by
  cases e <;> simp [Reader.delivered, Transaction.bits, ErrorKind.status]

/-- A read that passes its checks delivers the next bits of the stream. -/
theorem Reader.afterRead_delivered {r : Reader} {n : Nat} (id : Nat) (hr : r.Ok) (hn : requestError r n = none) :
    (r.afterRead id n).delivered = r.delivered ++ streamBits r.words r.position n := by
  obtain ⟨-, h64, hend⟩ := requestError_eq_none.1 hn
  have hlen : r.words.length = r.len := hr.1
  rw [← Transaction.bits_of_streamSum h64 (hlen ▸ hend)]
  simp [Reader.delivered]

theorem Reader.construct_inOrder (storage : Nat) (ws : List Word) : (Reader.construct storage ws).InOrder := rfl

/-- A request delivers from where the last one ended, so the stream stays in order. -/
theorem readOn_keeps_inOrder {id n : Nat} {r r' : Reader} (hr : r.Ok) (hord : r.InOrder)
    (h : readOn id n r = .next r') : r'.InOrder := by
  rcases readOn_next hr h with ⟨e, -, rfl⟩ | ⟨hn, rfl⟩
  · exact (r.raise_delivered n e).trans hord
  · obtain ⟨-, h64, -⟩ := requestError_eq_none.1 hn
    calc (r.afterRead id n).delivered
        = streamBits r.words 0 r.position ++ streamBits r.words (0 + r.position) n := by
          rw [Reader.afterRead_delivered id hr hn, hord, Nat.zero_add]
      _ = streamBits r.words 0 (r.afterRead id n).position := by
          rw [← streamBits_add, Reader.afterRead_position r id h64]

/-- Settles O38: a construction has delivered nothing, and a request delivers the next stretch of the stream or
nothing. -/
theorem everyBitIsReturnedOnceAndInOrder : Obligations.EveryBitIsReturnedOnceAndInOrder := by
  intro s t _ hs h
  exact step_keeps_each_reader h (fun _ => Reader.construct_inOrder) (fun _ _ _ _ => readOn_keeps_inOrder) hs

/-- Settles O14: the read is its reader's step, which keeps the memory and only adds to the record. -/
theorem readFrame : Obligations.ReadFrame := by
  intro n s t h
  obtain ⟨m, r, r', hm, ⟨hr, hok⟩, hread, rfl⟩ := exec_next h
  cases hm
  obtain ⟨hwords, hlen, hstorage, -⟩ := readOn_keeps_memory hok hread
  exact ⟨s.agreeExcept_setSlot _ _, r, r', hr, State.slot_setSlot_same .., hstorage, hlen, by rw [hwords],
    fun a => by rw [hwords], readOn_record hok hread⟩

/-- Settles O16: an error adds no event, and a success adds those of `Reader.readEvents`. -/
theorem accessesOfARead : Obligations.AccessesOfARead := by
  intro n s t r r' h hr hr'
  obtain ⟨-, ⟨e, -, rfl⟩ | ⟨-, rfl⟩⟩ := exec_read_inv h hr hr'
  · exact ⟨fun _ => rfl, fun ⟨d, hd⟩ => absurd hd (r.raise_lastResponse_ne_ok n e d)⟩
  · exact ⟨fun hfail => absurd (r.afterRead_lastResponse s.target n) (hfail _), fun _ =>
      ⟨fun hz => congrArg (r.accesses ++ ·) (Reader.readEvents_of_takeNext_eq_zero s.target hz),
        fun hp => congrArg (r.accesses ++ ·) (Reader.readEvents_of_takeNext_pos s.target hp)⟩⟩

end Sys2Proof.Machine
end

section
/-! What no action does: fault, or write the storage of a live reader (spec 20, R32, R38). -/

namespace Sys2Proof.Machine

/-- A request that faults had a live reader in a state of spec 10, R18, whose step faulted. -/
theorem State.onTarget_fault {s : State} {f : Reader → Host.Outcome Reader Fault Refusal} {e : Fault}
    (h : s.onTarget f = .fault e) : ∃ r, s.Addresses r ∧ f r = .fault e := by
  unfold State.onTarget at h
  split at h
  · cases h
  · cases h
  · rename_i r hr
    split_ifs at h with hok
    split at h
    · cases h
    · rename_i e' hf
      cases h
      exact ⟨r, ⟨hr, hok⟩, hf⟩
    · cases h

theorem exec_ne_fault (i : Instr) (s : State) (e : Fault) : exec i s ≠ .fault e := by
  cases i with
  | read n =>
    intro h
    obtain ⟨r, ⟨-, hok⟩, hfault⟩ := State.onTarget_fault h
    obtain ⟨r', hread⟩ := readOn_total s.target n hok
    rw [hread] at hfault
    cases hfault

/-- Only a request executes anything, and no other action can fault. -/
theorem perform_ne_fault (a : HostAction) (s : State) (e : Fault) : perform a s ≠ .fault e := by
  cases a with
  | construct id storage ws => simp only [perform, construct]; split_ifs <;> simp
  | request id count word =>
    simp only [perform, request]
    split_ifs
    · exact exec_ne_fault _ _ e
    · simp
  | observe id => simp [perform, Machine.observe]
  | destroy id => simp only [perform, destroy]; split <;> simp
  | writeStorage storage index value => simp only [perform, writeStorage]; split_ifs <;> simp
  | overlappingRequest id word => simp [perform, overlappingRequest]

/-- Settles O36: a step holds the state or performs an action, and no action faults. -/
theorem noStepFaults : Obligations.NoStepFaults := by
  intro s e
  unfold step takeAction
  split
  · simp
  · exact perform_ne_fault _ _ e

/-- Settles O40: the live reader is the use of the storage, or the conflict, that each check looks for. -/
theorem storageWritesAreRefused : Obligations.StorageWritesAreRefused := by
  intro s id r hr
  refine ⟨fun _ _ => if_pos (State.storageInUse_of_slot hr), fun id' ws hne hid hlen hws => ?_⟩
  have hconflict : storageConflict id' r.storage ws s.readers = true :=
    storageConflict_eq_true.2 ⟨id, r, mem_of_lookupSlot hr, hne.symm, rfl, hws.symm⟩
  simp [perform, construct, Nat.not_le.2 hid, Nat.not_lt.2 hlen, hconflict]

end Sys2Proof.Machine
end

section
/-! Requests to several readers, interleaved and alone (spec 20, R36; 60, R71). -/

namespace Sys2Proof.Machine

/-- A request that stands for its count, to a live reader whose step completes, writes that reader back. -/
theorem perform_request {s : State} {id : Nat} {word : RequestWord} {r r' : Reader}
    (hr : s.slot id = some (.live r)) (hok : r.Ok) (hread : readOn id word.toNat r = .next r') :
    perform (.request id word.toNat word) s = .next (({ s with target := id } : State).setSlot id (.live r')) := by
  simp only [perform, request, presents_toNat, if_true]
  exact exec_read ⟨hr, hok⟩ hread

/-- Writing a reader to the table leaves live what was live. -/
theorem State.live_setSlot (s : State) (id : Nat) (r' : Reader) {j : Nat} (h : ∃ r, s.slot j = some (.live r)) :
    ∃ r, (s.setSlot id (.live r')).slot j = some (.live r) := by
  rw [State.slot_setSlot]
  split_ifs
  · exact ⟨r', rfl⟩
  · exact h

theorem performAll_cons {a : HostAction} {rest : List HostAction} {s t : State} (h : perform a s = .next t) :
    performAll (a :: rest) s = performAll rest t := by
  simp only [performAll, h]

/-- Two machines that agree on one instance still do so after one has taken an interleaving of requests and the other
only those of the interleaving that are for that instance. -/
theorem performAll_requests_slot (id : Nat) (reqs : List (Nat × RequestWord)) {s v : State} (hs : s.Inv)
    (hlive : ∀ q ∈ reqs, ∃ r, s.slot q.1 = some (.live r)) (hsv : s.slot id = v.slot id) :
    ∃ t u, performAll (reqs.map fun q => .request q.1 q.2.toNat q.2) s = .next t ∧
      performAll (readRequests id ((reqs.filter fun q => q.1 = id).map Prod.snd)) v = .next u ∧
      t.slot id = u.slot id := by
  induction reqs generalizing s v with
  | nil => exact ⟨s, v, rfl, rfl, hsv⟩
  | cons q rest ih =>
    obtain ⟨k, word⟩ := q
    obtain ⟨r, hr⟩ := hlive (k, word) List.mem_cons_self
    have hok := hs.readerOk k r hr
    obtain ⟨r', hread⟩ := readOn_total k word.toNat hok
    have hperform := perform_request hr hok hread
    have hinv := perform_keeps_inv hs hperform
    have hlive' := fun q hq =>
      State.live_setSlot { s with target := k } k r' (hlive q (List.mem_cons_of_mem (k, word) hq))
    by_cases hk : k = id
    · subst hk
      obtain ⟨t, u, ht, hu, htu⟩ := ih hinv hlive' (v := ({ v with target := k } : State).setSlot k (.live r'))
        (by rw [State.slot_setSlot_same, State.slot_setSlot_same])
      refine ⟨t, u, (performAll_cons hperform).trans ht, ?_, htu⟩
      rw [List.filter_cons_of_pos (by simp)]
      exact (performAll_cons (perform_request (hsv.symm.trans hr) hok hread)).trans hu
    · obtain ⟨t, u, ht, hu, htu⟩ := ih hinv hlive' (v := v)
        ((State.slot_setSlot_other _ (Ne.symm hk) _).trans hsv)
      refine ⟨t, u, (performAll_cons hperform).trans ht, ?_, htu⟩
      rw [List.filter_cons_of_neg (by simpa using hk)]
      exact hu

/-- Settles O44: both runs begin in the same machine, which agrees with itself. -/
theorem readersAreIndependent : Obligations.ReadersAreIndependent :=
  fun reqs _ id hs hlive => performAll_requests_slot id reqs hs hlive rfl

end Sys2Proof.Machine
end

section
/-! Programs as bytes: decoding and encoding are the two directions of one relation (spec 30, R40 to R42; 95,
section 3). -/

namespace Sys2Proof

theorem decodeByte_of_lt {b : Byte} (h : b.toNat < 128) : decodeByte b = .ok (.read b.toNat) := by
  rw [decodeByte, if_pos h, decode, BitVec.toNat_setWidth, Nat.mod_eq_of_lt h]

/-- The byte of a request that a word carries is its count, with bit 7 clear. -/
theorem encodeByte_toNat {n : Nat} (h : n < 128) : (encodeByte (.read n)).toNat = n := by
  have hword : n % 2 ^ 7 = n := Nat.mod_eq_of_lt h
  have hbyte : n % 2 ^ 8 = n := Nat.mod_eq_of_lt (by omega)
  rw [encodeByte, encode, presentCount, if_pos h, BitVec.toNat_setWidth, BitVec.toNat_ofNat, hword, hbyte]

/-- A byte is read as a request exactly when it is what that request is written as, and a word carries it. -/
theorem decodeByte_eq_ok {b : Byte} {i : Instr} : decodeByte b = .ok i ↔ encodeByte i = b ∧ i.WellFormed := by
  constructor
  · intro h
    by_cases hb : b.toNat < 128
    · rw [decodeByte_of_lt hb] at h
      cases h
      exact ⟨BitVec.eq_of_toNat_eq (encodeByte_toNat hb), hb⟩
    · rw [decodeByte, if_neg hb] at h
      cases h
  · rintro ⟨rfl, hi⟩
    obtain ⟨n⟩ := i
    have hn := encodeByte_toNat hi
    rw [decodeByte_of_lt (hn.trans_lt hi), hn]

/-- Bytes are read as requests when the first byte is read as the first one, and the rest as the rest. -/
theorem decodeProgram_cons_eq_ok {b : Byte} {rest : List Byte} {is : List Instr} :
    decodeProgram (b :: rest) = .ok is ↔
      ∃ i js, is = i :: js ∧ decodeByte b = .ok i ∧ decodeProgram rest = .ok js := by
  rw [decodeProgram]
  cases decodeByte b with
  | error e => simp
  | ok i =>
    cases decodeProgram rest with
    | error e => simp
    | ok js => simp [eq_comm]

/-- Bytes are read as requests exactly when they are what those requests are written as, and words carry them. -/
theorem decodeProgram_eq_ok {bytes : List Byte} {is : List Instr} :
    decodeProgram bytes = .ok is ↔ encodeProgram is = bytes ∧ ∀ i ∈ is, i.WellFormed := by
  induction bytes generalizing is with
  | nil => cases is <;> simp [decodeProgram, encodeProgram]
  | cons b rest ih =>
    rw [decodeProgram_cons_eq_ok]
    cases is with
    | nil => simp [encodeProgram]
    | cons i js =>
      have hsplit : encodeProgram (i :: js) = b :: rest ↔ encodeByte i = b ∧ encodeProgram js = rest := by
        rw [encodeProgram, List.map_cons, List.cons.injEq, ← encodeProgram]
      rw [hsplit, List.forall_mem_cons, and_and_and_comm, ← decodeByte_eq_ok, ← ih]
      simp

/-- Settles O2: both clauses are the relation between bytes and requests, read in its two directions. -/
theorem programsReadBack : Obligations.ProgramsReadBack :=
  ⟨fun _ his => decodeProgram_eq_ok.2 ⟨rfl, his⟩, fun _ _ h => decodeProgram_eq_ok.1 h⟩

/-- Settles O1: the words and bytes are closed terms, which the decoder evaluates. -/
theorem writtenOutWordsDecode : Obligations.WrittenOutWordsDecode := by
  unfold Obligations.WrittenOutWordsDecode
  decide

end Sys2Proof
end

section
/-! What a request on the port does: the duty of the host, the decoded word, and a step that runs it (spec 30, R39, R41,
R43; 60, R72). -/

namespace Sys2Proof.Machine

/-- A request whose word stands for its count runs the decoded word on the port it is presented on. -/
theorem perform_request_of_presents {count : Nat} {word : RequestWord} (h : presents count word = true) (id : Nat)
    (s : State) : perform (.request id count word) s = exec (decode word) { s with target := id } := by
  rw [perform, request, if_pos h]

theorem perform_request_of_not_presents {count : Nat} {word : RequestWord} (h : presents count word = false) (id : Nat)
    (s : State) : perform (.request id count word) s = .refused .countMisrepresented := by
  rw [perform, request, if_neg (by simp [h])]

/-- The words that stand for a count no word holds are those of an invalid count. -/
theorem presents_of_ge {m : Nat} (hm : 128 ≤ m) {w : RequestWord} :
    presents m w = true ↔ w.toNat = 0 ∨ 64 < w.toNat := by
  rw [presents, if_neg (Nat.not_lt.2 hm), Bool.or_eq_true, beq_iff_eq, decide_eq_true_eq]

theorem presentCount_of_ge {m : Nat} (hm : 128 ≤ m) : presentCount m = 127#7 :=
  if_neg (Nat.not_lt.2 hm)

/-- Settles O3: the words that may stand for a large count are those of an invalid one, which the reader answers with
that error; the words of valid counts are the others. -/
theorem largeCountsAreNeverReduced : Obligations.LargeCountsAreNeverReduced := by
  intro m hm
  refine ⟨?_, fun w s r hw hs => ?_, fun w id s h1 h64 => ?_⟩
  · rw [presents_of_ge hm, presentCount_of_ge hm]
    decide
  · have hinvalid : requestError r w.toNat = some .invalidBitCount :=
      requestError_eq_invalid.2 ((presents_of_ge hm).1 hw)
    exact ⟨_, _, (perform_request_of_presents hw s.target s).trans (exec_read hs (readOn_error hinvalid)),
      State.slot_setSlot_same .., r.raise_cursor w.toNat _, r.raise_lastResponse w.toNat _⟩
  · have hbreach : presents m w = false := by
      rw [← Bool.not_eq_true, presents_of_ge hm]
      omega
    exact perform_request_of_not_presents hbreach id s

theorem step_of_pending_nil {s : State} (h : s.pending = []) : step s = .next s := by
  rw [step, takeAction, h]

theorem step_of_pending_cons {s : State} {a : HostAction} {rest : List HostAction} (h : s.pending = a :: rest) :
    step s = perform a { s with pending := rest } := by
  rw [step, takeAction, h]

/-- A request placed on the port in use is run by the very next step, and is then off the list again. -/
theorem step_presentNext (s : State) (word : RequestWord) : step (s.presentNext word) = exec (decode word) s :=
  (step_of_pending_cons rfl).trans (perform_request_of_presents (presents_toNat word) s.target s)

theorem State.withFetchWord_of_some {nbits w : Nat} {word : RequestWord} (h : tableRequestWord nbits w = some word)
    (s : State) : s.withFetchWord nbits w = s.presentNext word := by
  rw [State.withFetchWord, h]

/-- Settles O35: the next action of the host is performed, a request among them as its decoded word. -/
theorem stepRunsTheDecodedRequest : Obligations.StepRunsTheDecodedRequest := by
  refine ⟨fun s id count word rest hp hword => ?_, fun s nbits w i hi => ?_, fun s => step_of_pending_nil⟩
  · rw [step_of_pending_cons hp, perform_request_of_presents hword]
  · obtain ⟨word, hword, rfl⟩ := Option.map_eq_some_iff.1 hi
    rw [State.withFetchWord_of_some hword, step_presentNext]

end Sys2Proof.Machine
end

section
/-! The response of a request and its code (spec 30, R44, R45). -/

namespace Sys2Proof.Machine

theorem Status.code_eq_zero {st : Status} : st.code = 0b00#2 ↔ st = .ok := by
  cases st <;> decide

theorem Status.code_eq_one {st : Status} : st.code = 0b01#2 ↔ st = .invalidBitCount := by
  cases st <;> decide

theorem Status.code_eq_two {st : Status} : st.code = 0b10#2 ↔ st = .endOfStream := by
  cases st <;> decide

theorem Status.code_ne_three (st : Status) : st.code ≠ 0b11#2 := by
  cases st <;> decide

theorem ErrorKind.status_ne_ok (e : ErrorKind) : e.status ≠ .ok := by
  cases e <;> decide

/-- The status that a request is answered with. -/
def requestStatus (r : Reader) (n : Nat) : Status :=
  ((requestError r n).map ErrorKind.status).getD .ok

theorem requestStatus_eq_invalidBitCount {r : Reader} {n : Nat} :
    requestStatus r n = .invalidBitCount ↔ n = 0 ∨ 64 < n := by
  rw [← requestError_eq_invalid (r := r), requestStatus]
  rcases requestError r n with - | ⟨- | -⟩ <;> simp [ErrorKind.status]

/-- The availability test, as the bits that remain (spec 10, R19; 60, R63). -/
theorem requestStatus_eq_endOfStream {r : Reader} {n : Nat} :
    requestStatus r n = .endOfStream ↔ 1 ≤ n ∧ n ≤ 64 ∧ r.remaining < n := by
  have hrem : 1 ≤ n ∧ n ≤ 64 ∧ r.remaining < n ↔ requestError r n = some .endOfStream := by
    rw [requestError_eq_end, Reader.remaining]
    omega
  rw [hrem, requestStatus]
  rcases requestError r n with - | ⟨- | -⟩ <;> simp [ErrorKind.status]

/-- A read addressed to a live reader appends one response, of the status its checks give, and moves the cursor on a
success only. -/
theorem exec_read_responds {n : Nat} {s : State} {r : Reader} (hs : s.Addresses r) :
    ∃ t r' x, exec (.read n) s = .next t ∧ t.slot s.target = some (.live r') ∧
      r'.transactions = r.transactions ++ [{ count := n, response := x }] ∧ x.status = requestStatus r n ∧
      (x.status = .ok → x.data = streamSum r.words r.position n ∧ r'.position = r.position + n) ∧
      (x.status ≠ .ok → x.data = 0#64 ∧ r'.cursor = r.cursor) := by
  rcases exec_read_cases (n := n) hs with ⟨e, he, hexec⟩ | ⟨hn, hexec⟩
  · exact ⟨_, _, _, hexec, State.slot_setSlot_same .., r.raise_transactions n e, by rw [requestStatus, he]; rfl,
      fun hok => absurd hok e.status_ne_ok, fun _ => ⟨rfl, r.raise_cursor n e⟩⟩
  · obtain ⟨-, h64, -⟩ := requestError_eq_none.1 hn
    exact ⟨_, _, _, hexec, State.slot_setSlot_same .., rfl, by rw [requestStatus, hn]; rfl,
      fun _ => ⟨rfl, r.afterRead_position s.target h64⟩, fun herr => absurd rfl herr⟩

/-- Settles O15: each code stands for one status, and the checks give the status. -/
theorem everyRequestGivesOneResponse : Obligations.EveryRequestGivesOneResponse := by
  refine ⟨rfl, rfl, rfl, fun n s r hs => ?_⟩
  obtain ⟨t, r', x, hexec, hslot, htrans, hstatus, hsuccess, herror⟩ := exec_read_responds (n := n) hs
  refine ⟨t, r', x, hexec, hslot, htrans, fun hok => (hsuccess hok).1, fun herr => (herror herr).1, ?_, ?_, ?_, ?_,
    x.status.code_ne_three⟩
  · rw [Status.code_eq_zero]
    exact fun hok => (hsuccess hok).2
  · rw [Status.code_eq_one, hstatus, requestStatus_eq_invalidBitCount]
  · rw [Status.code_eq_two, hstatus, requestStatus_eq_endOfStream]
  · rw [ne_eq, Status.code_eq_zero]
    exact fun herr => (herror herr).2

end Sys2Proof.Machine
end

section
/-! The status outputs show the registers (spec 30, R46; 10, R22). -/

namespace Sys2Proof.Machine

/-- A register value within `MAX_WORDS` loses nothing in `IDX_W` bits. -/
theorem toNat_ofNat_idxW {v m : Nat} (h : v ≤ m) : (BitVec.ofNat (idxW m) v).toNat = v := by
  rw [BitVec.toNat_ofNat, Nat.mod_eq_of_lt (h.trans_lt (lt_two_pow_idxW m))]

theorem State.outputs_of_live {s : State} {id : Nat} {r : Reader} (h : s.slot id = some (.live r)) :
    s.outputs id =
      some
        { len := BitVec.ofNat _ r.len
          wordIndex := BitVec.ofNat _ r.wordIndex
          bitsConsumed := r.bitsConsumed } := by
  rw [State.outputs, State.liveReader_eq_some.2 h, Option.map_some]

/-- Settles O34: the invariant bounds both registers by `MAX_WORDS`, which `IDX_W` bits hold. -/
theorem outputsShowTheRegisters : Obligations.OutputsShowTheRegisters := by
  refine ⟨fun s id r hs hr => ?_, fun _ _ => rfl⟩
  have hlen := hs.lenBound id r hr
  obtain ⟨-, hwi, -⟩ := hs.readerOk id r hr
  exact ⟨_, State.outputs_of_live hr, toNat_ofNat_idxW hlen, toNat_ofNat_idxW (hwi.trans hlen), rfl⟩

end Sys2Proof.Machine
end

section
/-! Lines read back: the decimal digits of a count, the tokens of a line, and the request a line says (spec 30, R48). -/

namespace Sys2Proof.Machine

/-- A decimal digit. -/
abbrev IsDecimal (ch : Char) : Prop :=
  48 ≤ ch.toNat ∧ ch.toNat ≤ 57

/-- A character that neither ends the line nor separates tokens. -/
abbrev IsPlain (ch : Char) : Prop :=
  ch ≠ ';' ∧ ¬ (ch = ' ' ∨ ch = '\t') ∧ ¬ (ch = '[' ∨ ch = ']' ∨ ch = ',')

theorem IsDecimal.ne {ch other : Char} (h : IsDecimal ch) (hother : ¬ IsDecimal other) : ch ≠ other := by
  rintro rfl
  exact hother h

theorem IsDecimal.isPlain {ch : Char} (h : IsDecimal ch) : IsPlain ch :=
  ⟨h.ne (by decide), not_or_intro (h.ne (by decide)) (h.ne (by decide)),
    not_or_intro (h.ne (by decide)) (not_or_intro (h.ne (by decide)) (h.ne (by decide)))⟩

/-- The character of a digit, as `countDigits` writes it. -/
def decimalChar (d : Nat) : Char :=
  Char.ofNat (48 + d)

theorem decimalChar_toNat {d : Nat} (h : d < 10) : (decimalChar d).toNat = 48 + d := by
  have hvalid : (48 + d).isValidChar := .inl (by omega)
  rw [decimalChar, Char.ofNat, dif_pos hvalid]
  exact Char.toNat_ofNatAux hvalid

theorem isDecimal_decimalChar {d : Nat} (h : d < 10) : IsDecimal (decimalChar d) := by
  rw [IsDecimal, decimalChar_toNat h]
  omega

theorem digitValue_decimalChar {d : Nat} (h : d < 10) : digitValue (decimalChar d) = some d := by
  rw [digitValue, if_pos (isDecimal_decimalChar h), decimalChar_toNat h, Nat.add_sub_cancel_left]

/-- The value of digits written out, most significant first. -/
theorem digitsValue_map_decimalChar {ds : List Nat} (h : ∀ d ∈ ds, d < 10) (acc : Nat) :
    digitsValue 10 acc (ds.map decimalChar) = some (ds.foldl (fun v d => v * 10 + d) acc) := by
  induction ds generalizing acc with
  | nil => rfl
  | cons d ds ih =>
    obtain ⟨hd, hds⟩ := List.forall_mem_cons.1 h
    simp only [List.map_cons, List.foldl_cons, digitsValue, digitValue_decimalChar hd, if_pos hd, ih hds]

/-- Decimal digits are read as a decimal numeral: none of them is the `x` of a hexadecimal one. -/
theorem numeral_of_decimal {t : List Char} (h : ∀ ch ∈ t, IsDecimal ch) (hne : t ≠ []) :
    numeral t = digitsValue 10 0 t := by
  unfold numeral
  split
  · exact absurd rfl ((h 'x' (by simp)).ne (by decide))
  · exact absurd rfl hne
  · rfl

theorem countDigits_ne_nil (n : Nat) : countDigits n ≠ [] := by
  simp [countDigits]

/-- The digits of a count below 1000 are three, two or one, and the count is their value. -/
theorem countDigits_eq_map {n : Nat} (hn : n < 1000) :
    ∃ ds : List Nat, countDigits n = ds.map decimalChar ∧ (∀ d ∈ ds, d < 10) ∧
      ds.foldl (fun v d => v * 10 + d) 0 = n := by
  rcases Nat.lt_or_ge n 10 with hten | hten
  · refine ⟨[n % 10], ?_, ?_, ?_⟩
    · rw [countDigits, if_neg (by omega), if_neg (by omega)]; rfl
    · exact List.forall_mem_singleton.2 (by omega)
    · simp only [List.foldl]; omega
  rcases Nat.lt_or_ge n 100 with hhundred | hhundred
  · refine ⟨[n / 10 % 10, n % 10], ?_, ?_, ?_⟩
    · rw [countDigits, if_neg (by omega), if_pos hten]; rfl
    · exact List.forall_mem_cons.2 ⟨by omega, List.forall_mem_singleton.2 (by omega)⟩
    · simp only [List.foldl]; omega
  · refine ⟨[n / 100, n / 10 % 10, n % 10], ?_, ?_, ?_⟩
    · rw [countDigits, if_pos hhundred, if_pos hten]; rfl
    · exact List.forall_mem_cons.2 ⟨by omega, List.forall_mem_cons.2 ⟨by omega, List.forall_mem_singleton.2 (by omega)⟩⟩
    · simp only [List.foldl]; omega

theorem isDecimal_of_mem_countDigits {n : Nat} (hn : n < 1000) {ch : Char} (h : ch ∈ countDigits n) :
    IsDecimal ch := by
  obtain ⟨ds, hdigits, hlt, -⟩ := countDigits_eq_map hn
  rw [hdigits] at h
  obtain ⟨d, hd, rfl⟩ := List.mem_map.1 h
  exact isDecimal_decimalChar (hlt d hd)

/-- The digits of a count are read as the count. -/
theorem numeral_countDigits {n : Nat} (hn : n < 1000) : numeral (countDigits n) = some n := by
  obtain ⟨ds, hdigits, hlt, hvalue⟩ := countDigits_eq_map hn
  calc numeral (countDigits n)
      = digitsValue 10 0 (countDigits n) :=
        numeral_of_decimal (fun _ => isDecimal_of_mem_countDigits hn) (countDigits_ne_nil n)
    _ = some n := by rw [hdigits, digitsValue_map_decimalChar hlt, hvalue]

/-- Plain characters are gathered into the token at hand. -/
theorem tokensFrom_append {t : List Char} (h : ∀ ch ∈ t, IsPlain ch) (acc rest : List Char) :
    tokensFrom acc (t ++ rest) = tokensFrom (acc ++ t) rest := by
  induction t generalizing acc with
  | nil => rw [List.nil_append, List.append_nil]
  | cons ch chs ih =>
    obtain ⟨⟨hend, hspace, hmark⟩, hchs⟩ := List.forall_mem_cons.1 h
    rw [List.cons_append, tokensFrom, if_neg hend, if_neg hspace, if_neg hmark, ih hchs, List.append_assoc,
      List.singleton_append]

theorem pushToken_of_ne_nil {t : List Char} (h : t ≠ []) (rest : List (List Char)) :
    pushToken t rest = t :: rest := by
  cases t with
  | nil => exact absurd rfl h
  | cons ch chs => rfl

/-- Plain characters before a space are the first token. -/
theorem tokensFrom_token {t : List Char} (h : ∀ ch ∈ t, IsPlain ch) (hne : t ≠ []) (rest : List Char) :
    tokensFrom [] (t ++ ' ' :: rest) = t :: tokensFrom [] rest := by
  rw [tokensFrom_append h, List.nil_append, tokensFrom, if_neg (by decide), if_pos (.inl rfl), pushToken_of_ne_nil hne]

/-- What follows a `;` is a comment. -/
theorem tokensFrom_comment (comment : List Char) : tokensFrom [] (';' :: comment) = [] := by
  rw [tokensFrom, if_pos rfl, pushToken]

/-- The tokens of a written line are the mnemonic and the digits of the count. -/
theorem tokensFrom_printInstr {n : Nat} (hn : n < 1000) (comment : List Char) :
    tokensFrom [] (printInstr (.read n) ++ ' ' :: ';' :: comment) = [['R', 'E', 'A', 'D'], countDigits n] := by
  have hline : printInstr (.read n) ++ ' ' :: ';' :: comment =
      ['R', 'E', 'A', 'D'] ++ ' ' :: (countDigits n ++ ' ' :: ';' :: comment) := by
    simp [printInstr]
  have hmnemonic : ∀ ch ∈ ['R', 'E', 'A', 'D'], IsPlain ch := by simp [IsPlain]
  rw [hline, tokensFrom_token hmnemonic (by simp),
    tokensFrom_token (fun _ hch => (isDecimal_of_mem_countDigits hn hch).isPlain) (countDigits_ne_nil n),
    tokensFrom_comment]

/-- A line is read as a request exactly when its tokens are the mnemonic and the numeral of a count that a word
carries. -/
theorem parseLine_eq_read {line : List Char} {i : Instr} :
    parseLine line = .ok (.read i) ↔
      ∃ t n, tokensFrom [] line = [['R', 'E', 'A', 'D'], t] ∧ numeral t = some n ∧ n < 128 ∧ i = .read n := by
  constructor
  · intro h
    unfold parseLine at h
    split at h
    case h_1 => cases h
    case h_2 t ht =>
      split at h
      · cases h
      · rename_i n hn
        split_ifs at h with hlt
        cases h
        exact ⟨t, n, ht, hn, hlt, rfl⟩
    case h_3 => split at h <;> cases h
    case h_4 => cases h
  · rintro ⟨t, n, ht, hn, hlt, rfl⟩
    simp only [parseLine, ht, hn, if_pos hlt]

/-- Settles O4: the tokens of a written line are those of its request, and only a count that a word carries is read. -/
theorem linesReadBack : Obligations.LinesReadBack := by
  refine ⟨fun n comment hn => ?_, fun line i h => ?_⟩
  · have hdigits : n < 1000 := by omega
    exact parseLine_eq_read.2 ⟨_, n, tokensFrom_printInstr hdigits comment, numeral_countDigits hdigits, hn, rfl⟩
  · obtain ⟨t, n, -, -, hlt, rfl⟩ := parseLine_eq_read.1 h
    exact hlt

end Sys2Proof.Machine
end

section
/-! The component functions of a read: mask, split, the two parts, the advance, the shifts (spec 40, R49 to R52, R55,
R56). -/

namespace Sys2Proof.Machine

/-- Below the constant's case, `mask` is the shift and the subtraction (spec 40, R49). -/
theorem mask_of_lt {k : Nat} (hk : k < 64) : mask k = some (1#64 <<< k - 1#64) := by
  rw [mask, if_neg hk.ne, shiftLeft_of_le (Nat.le_of_lt_succ hk), Option.map_some]

/-- Settles O25: the bits of the mask by its value, the constant and the shift by its two cases. -/
theorem maskHasTheLowBits : Obligations.MaskHasTheLowBits := by
  refine ⟨fun k hk => ?_, rfl, rfl, fun k hk => mask_of_lt hk⟩
  obtain ⟨m, hm, hbits⟩ := mask_getLsbD hk
  exact ⟨m, hm, fun j _ => by rw [hbits, decide_eq_true_iff]⟩

/-- Masking keeps the low bits of a word, as a number. -/
theorem exists_mask_and_toNat {k : Nat} (hk : k ≤ 64) :
    ∃ m, mask k = some m ∧ ∀ w : Word, (w &&& m).toNat = w.toNat % 2 ^ k := by
  obtain ⟨m, hm, hval⟩ := mask_toNat hk
  exact ⟨m, hm, fun w => by rw [BitVec.toNat_and, hval, Nat.and_two_pow_sub_one_eq_mod]⟩

theorem takeCur_le (c : BitOffset) (n : Nat) : takeCur c n ≤ 64 :=
  (Nat.min_le_left _ _).trans (Nat.sub_le _ _)

/-- Settles O26: the ranges are arithmetic over the three definitions and an offset below 64. -/
theorem splitRanges : Obligations.SplitRanges := by
  intro wi c n h1 h64
  have hc := c.isLt
  have hleft : leftover c = 64 - c.toNat := rfl
  have hcur : takeCur c n = min (leftover c) n := rfl
  have hnext : takeNext c n = n - takeCur c n := rfl
  rw [bitOffset_eq_zero]
  refine ⟨hleft, hcur, hnext, by omega, by omega, by omega, by omega, by omega, by omega, takeNext_pos_iff c n,
    by omega, fun j hj => ?_⟩
  split_ifs <;> omega

/-- Part 1 is the shift and the mask (spec 40, R51). -/
theorem part1_of_mask {c : BitOffset} {n : Nat} {m : Word} (hm : mask (takeCur c n) = some m) (w0 : Word) :
    part1 w0 c n = some ((w0 >>> c.toNat) &&& m) := by
  have hc := c.isLt
  rw [part1, shiftRight_of_le (by omega), hm]

/-- Part 2 is empty where the next word is not needed, whatever stands for it (spec 40, R51). -/
theorem part2_of_takeNext_eq_zero {c : BitOffset} {n : Nat} (h : takeNext c n = 0) (w1 : Option Word) :
    part2 w1 c n = some 0#64 :=
  if_neg h.not_gt

/-- Part 2 is the mask and the shift where the next word is needed (spec 40, R51). -/
theorem part2_of_mask {c : BitOffset} {n : Nat} {m : Word} (h64 : n ≤ 64) (h : 0 < takeNext c n)
    (hm : mask (takeNext c n) = some m) (w1 : Word) : part2 (some w1) c n = some ((w1 &&& m) <<< takeCur c n) := by
  have hcur : takeCur c n ≤ 63 := by have := takeCur_add_takeNext c n; omega
  simp only [part2, if_pos h, hm]
  exact shiftLeft_of_le hcur _

theorem extractor_of_parts {w0 a b : Word} {w1 : Option Word} {c : BitOffset} {n : Nat} (ha : part1 w0 c n = some a)
    (hb : part2 w1 c n = some b) : wordBoundaryStraddleExtractor w0 w1 c n = some (a ||| b) := by
  rw [wordBoundaryStraddleExtractor, ha, hb]

/-- Settles O27: the two parts are defined, and the second is empty when `take_next = 0`. -/
theorem extractorCombinesItsParts : Obligations.ExtractorCombinesItsParts := by
  intro w0 c n _ h64
  obtain ⟨m0, hm0, -⟩ := mask_getLsbD (takeCur_le c n)
  refine ⟨m0, hm0, fun hz w1 => ?_, fun hp => ?_⟩
  · rw [extractor_of_parts (part1_of_mask hm0 w0) (part2_of_takeNext_eq_zero hz w1), BitVec.or_zero]
  · obtain ⟨m1, hm1, -⟩ := mask_getLsbD (show takeNext c n ≤ 64 from (Nat.sub_le _ _).trans h64)
    exact ⟨m1, hm1, fun w1 => extractor_of_parts (part1_of_mask hm0 w0) (part2_of_mask h64 hp hm1 w1)⟩

/-- Part 1 as a number. -/
theorem part1_toNat (w0 : Word) (c : BitOffset) (n : Nat) :
    ∃ a, part1 w0 c n = some a ∧ a.toNat = (w0 >>> c.toNat).toNat % 2 ^ takeCur c n := by
  obtain ⟨m, hm, hand⟩ := exists_mask_and_toNat (takeCur_le c n)
  exact ⟨_, part1_of_mask hm w0, hand _⟩

/-- Part 2 as a number, which is below `2 ^ n`, so the shift drops no bit (spec 40, R56). -/
theorem part2_toNat (w1 : Word) (c : BitOffset) {n : Nat} (h64 : n ≤ 64) :
    ∃ b, part2 (some w1) c n = some b ∧ b.toNat = w1.toNat % 2 ^ takeNext c n * 2 ^ takeCur c n ∧
      b.toNat < 2 ^ n := by
  rcases Nat.eq_zero_or_pos (takeNext c n) with hz | hp
  · refine ⟨0#64, part2_of_takeNext_eq_zero hz _, ?_, Nat.two_pow_pos n⟩
    rw [hz, pow_zero, Nat.mod_one, zero_mul]
    rfl
  · obtain ⟨m, hm, hand⟩ := exists_mask_and_toNat (show takeNext c n ≤ 64 from (Nat.sub_le _ _).trans h64)
    have hlt : w1.toNat % 2 ^ takeNext c n * 2 ^ takeCur c n < 2 ^ n := by
      calc w1.toNat % 2 ^ takeNext c n * 2 ^ takeCur c n
          < 2 ^ takeNext c n * 2 ^ takeCur c n :=
            Nat.mul_lt_mul_of_pos_right (Nat.mod_lt _ (Nat.two_pow_pos _)) (Nat.two_pow_pos _)
        _ = 2 ^ n := by rw [← pow_add, add_comm, takeCur_add_takeNext]
    have hval : ((w1 &&& m) <<< takeCur c n).toNat = w1.toNat % 2 ^ takeNext c n * 2 ^ takeCur c n := by
      rw [BitVec.toNat_shiftLeft, hand, Nat.shiftLeft_eq,
        Nat.mod_eq_of_lt (hlt.trans_le (Nat.pow_le_pow_right Nat.two_pos h64))]
    exact ⟨_, part2_of_mask h64 hp hm w1, hval, hval ▸ hlt⟩

/-- A word below `2 ^ k` and a multiple of `2 ^ k` have no bit in common. -/
theorem and_eq_zero_of_lt_of_dvd {a b : Word} {k : Nat} (ha : a.toNat < 2 ^ k) (hb : 2 ^ k ∣ b.toNat) :
    a &&& b = 0#64 := by
  obtain ⟨q, hq⟩ := hb
  apply BitVec.eq_of_getLsbD_eq
  intro j _
  rw [BitVec.getLsbD_and, BitVec.getLsbD, BitVec.getLsbD, hq, Nat.testBit_two_pow_mul]
  rcases Nat.lt_or_ge j k with hj | hj
  · simp [hj]
  · simp [Nat.testBit_lt_two_pow (ha.trans_le (Nat.pow_le_pow_right Nat.two_pos hj))]

/-- Settles O30: part 1 is below the power of two that divides part 2, so the two have no bit in common. -/
theorem partsOfAResultAreDisjoint : Obligations.PartsOfAResultAreDisjoint := by
  intro w0 w1 c n _ h64
  obtain ⟨a, ha, haval⟩ := part1_toNat w0 c n
  obtain ⟨b, hb, hbval, hblt⟩ := part2_toNat w1 c h64
  have halt : a.toNat < 2 ^ takeCur c n := haval ▸ Nat.mod_lt _ (Nat.two_pow_pos _)
  have hdvd : 2 ^ takeCur c n ∣ b.toNat := hbval ▸ Nat.dvd_mul_left ..
  have hand := and_eq_zero_of_lt_of_dvd halt hdvd
  refine ⟨a, b, ha, hb, halt, hdvd, hblt, hand, ?_, fun _ => hbval⟩
  rw [← BitVec.add_eq_or_of_and_eq_zero _ _ hand, BitVec.toNat_add_of_and_eq_zero hand]

/-- The advance as the quotient and the remainder of the new position (spec 40, R52). -/
theorem advance_divmod (wi : Nat) (c : BitOffset) {n : Nat} (h64 : n ≤ 64) :
    (advance wi c n).1 = (wi * 64 + c.toNat + n) / 64 ∧ (advance wi c n).2.toNat = (wi * 64 + c.toNat + n) % 64 := by
  have hpos := advance_position (wi := wi) (c := c) h64
  have hc := (advance wi c n).2.isLt
  omega

/-- Settles O31: the divmod form gives every case, by where the new offset lies to the end of the word. -/
theorem cursorAdvanceForms : Obligations.CursorAdvanceForms := by
  intro wi c n _ h64
  obtain ⟨hdiv, hmod⟩ := advance_divmod wi c h64
  have hc := c.isLt
  have hleft : leftover c = 64 - c.toNat := rfl
  have hcur : takeCur c n = min (leftover c) n := rfl
  have hnext : takeNext c n = n - takeCur c n := rfl
  have hbelow : c.toNat + n < 64 → (advance wi c n).1 = wi ∧ (advance wi c n).2.toNat = c.toNat + n := by omega
  have habove : 64 ≤ c.toNat + n → (advance wi c n).1 = wi + 1 ∧ (advance wi c n).2.toNat = c.toNat + n - 64 := by
    omega
  refine ⟨hbelow, habove, fun hless => hbelow (by omega), fun hall hnone => ?_, fun hp => ?_, hdiv, hmod, by omega⟩
  · obtain ⟨hwi, hbc⟩ := habove (by omega)
    exact Prod.ext hwi (bitOffset_eq_zero.2 (by omega))
  · obtain ⟨hwi, hbc⟩ := habove (by omega)
    exact ⟨hwi, by omega⟩

/-- Outside `0 .. 63` the shifts have no value (spec 00, R11; 93, item 1). -/
theorem shiftRight_eq_none {w : Word} {a : Nat} : shiftRight w a = none ↔ 64 ≤ a := by
  simp [shiftRight, Nat.lt_iff_add_one_le]

theorem shiftLeft_eq_none {w : Word} {a : Nat} : shiftLeft w a = none ↔ 64 ≤ a := by
  simp [shiftLeft, Nat.lt_iff_add_one_le]

/-- A read of a meaningful reader completes, so a refused one had none. -/
theorem exec_refused {i : Instr} {s : State} {e : Refusal} (h : exec i s = .refused e) :
    e = .notConstructed ∨ e = .destroyedReader ∨ e = .brokenInvariant := by
  cases i with
  | read n =>
    simp only [exec, execRead, State.onTarget] at h
    split at h
    · cases h; simp
    · cases h; simp
    · rename_i r _
      split_ifs at h with hok
      · obtain ⟨r', hread⟩ := readOn_total s.target n hok
        rw [hread] at h
        cases h
      · cases h; simp

/-- Only a request shifts anything, and no action meets a shift that is not defined. -/
theorem perform_ne_undefinedOperation (a : HostAction) (s : State) : perform a s ≠ .refused .undefinedOperation := by
  cases a with
  | request id count word =>
    simp only [perform, request]
    split_ifs
    · intro h
      simpa using exec_refused h
    · simp
  | _ => grind [perform, construct, Machine.observe, destroy, writeStorage, overlappingRequest]

/-- Settles O29: the amounts by the split, the domain of the shifts by their definition, and the steps because every
read of a meaningful reader completes. -/
theorem noShiftByTheWidth : Obligations.NoShiftByTheWidth := by
  refine ⟨fun c n h1 h64 => ?_, ⟨rfl, fun k hk => if_neg hk⟩, fun _ _ => ⟨shiftRight_eq_none, shiftLeft_eq_none⟩,
    fun s => ?_⟩
  · have hc := c.isLt
    have hle := takeCur_le c n
    have hsum := takeCur_add_takeNext c n
    have hcur : 1 ≤ takeCur c n := by unfold takeCur leftover; omega
    exact ⟨by omega, by omega, by omega, by omega⟩
  · unfold step takeAction
    split
    · simp
    · exact perform_ne_undefinedOperation _ _

end Sys2Proof.Machine
end

section
/-! The data of a read: the declarative sum over the words it draws from (spec 20, R28; 40, R54, R57, R58). -/

namespace Sys2Proof.Machine

/-- The stream bits of one word of the storage (spec 20, R28). -/
theorem streamBit_of_word {words : Memory} {i k : Nat} {w : Word} (h : words[i]? = some w) (hk : k < 64) :
    streamBit words (i * 64 + k) = some (w.getLsbD k) := by
  have hdiv : (i * 64 + k) / 64 = i := by omega
  have hmod : (i * 64 + k) % 64 = k := by omega
  rw [streamBit, hdiv, hmod, h, Option.map_some]

section TwoWords

variable {words : Memory} {wi : Nat} {w0 : Word} {c : BitOffset} {n : Nat} (h0 : words[wi]? = some w0)
include h0

/-- The sum over a stretch that ends in the current word. -/
theorem streamSum_within (h : c.toNat + n ≤ 64) (j : Nat) :
    (streamSum words (wi * 64 + c.toNat) n).getLsbD j = (decide (j < n) && w0.getLsbD (c.toNat + j)) := by
  rw [streamSum_getLsbD words _ (by omega)]
  by_cases hj : j < n
  · rw [Nat.add_assoc, streamBit_of_word h0 (by omega), Option.getD_some]
  · simp [hj]

/-- The sum over a stretch of the current word and the next one. -/
theorem streamSum_straddle {w1 : Word} (h1 : words[wi + 1]? = some w1) (h64 : n ≤ 64) (j : Nat) :
    (streamSum words (wi * 64 + c.toNat) n).getLsbD j = (decide (j < n) &&
      if c.toNat + j < 64 then w0.getLsbD (c.toNat + j) else w1.getLsbD (c.toNat + j - 64)) := by
  have hc := c.isLt
  rw [streamSum_getLsbD words _ h64]
  by_cases hj : j < n
  · split_ifs with hlow
    · rw [Nat.add_assoc, streamBit_of_word h0 hlow, Option.getD_some]
    · have hpos : wi * 64 + c.toNat + j = (wi + 1) * 64 + (c.toNat + j - 64) := by omega
      rw [hpos, streamBit_of_word h1 (by omega), Option.getD_some]
  · simp [hj]

/-- From the start of a word, 64 bits of the stream are that word (spec 40, R58). -/
theorem streamSum_of_word : streamSum words (wi * 64) 64 = w0 := by
  apply BitVec.eq_of_getLsbD_eq
  intro j hj
  simpa [hj] using streamSum_within (c := 0#6) (n := 64) h0 (by simp) j

/-- From inside a word, 64 bits of the stream are two shifted words (spec 40, R58). -/
theorem streamSum_of_two_words {w1 : Word} (h1 : words[wi + 1]? = some w1) :
    streamSum words (wi * 64 + c.toNat) 64 = (w0 >>> c.toNat) ||| (w1 <<< (64 - c.toNat)) := by
  have hc := c.isLt
  apply BitVec.eq_of_getLsbD_eq
  intro j hj
  rw [streamSum_straddle h0 h1 le_rfl, BitVec.getLsbD_or, BitVec.getLsbD_ushiftRight, BitVec.getLsbD_shiftLeft]
  by_cases hlow : c.toNat + j < 64
  · simp [hj, hlow, show j < 64 - c.toNat by omega]
  · have hhigh : j - (64 - c.toNat) = c.toNat + j - 64 := by omega
    simp [hj, hlow, hhigh, show ¬ j < 64 - c.toNat by omega, BitVec.getLsbD_of_ge w0 _ (Nat.le_of_not_lt hlow)]

end TwoWords

/-- Settles O28: extractor and sum have the same bits, in each of the two cases of a split. -/
theorem extractorMeetsTheDeclarativeForm : Obligations.ExtractorMeetsTheDeclarativeForm := by
  intro words wi w0 c n _ h64 h0
  refine ⟨fun h => ?_, fun w1 h h1 => ?_⟩
  · obtain ⟨d, hd, hbits⟩ := extractor_within w0 none c h
    rw [hd, BitVec.eq_of_getLsbD_eq fun j _ => (hbits j).trans (streamSum_within h0 h j).symm]
  · obtain ⟨d, hd, hbits⟩ := extractor_straddle w0 w1 c h64 h
    rw [hd, BitVec.eq_of_getLsbD_eq fun j _ => (hbits j).trans (streamSum_straddle h0 h1 h64 j).symm]

/-- The sum has no bit at or above its count. -/
theorem streamSum_ushiftRight_self (words : Memory) (p : Nat) {n : Nat} (h64 : n ≤ 64) :
    streamSum words p n >>> n = 0#64 := by
  apply BitVec.eq_of_getLsbD_eq
  intro j _
  rw [BitVec.getLsbD_ushiftRight, streamSum_getLsbD words p h64]
  simp

/-- Two consecutive stretches of the stream make one word, the second above the first. -/
theorem streamSum_add (words : Memory) (p : Nat) {n m : Nat} (h64 : n + m ≤ 64) :
    streamSum words p (n + m) = streamSum words p n ||| (streamSum words (p + n) m <<< n) := by
  apply BitVec.eq_of_getLsbD_eq
  intro j hj
  rw [BitVec.getLsbD_or, BitVec.getLsbD_shiftLeft, streamSum_getLsbD words p h64,
    streamSum_getLsbD words p (by omega), streamSum_getLsbD words (p + n) (by omega)]
  rcases Nat.lt_or_ge j n with hlow | hhigh
  · simp [hlow, Nat.lt_add_right m hlow]
  · have hpos : p + n + (j - n) = p + j := by omega
    have hcount : j - n < m ↔ j < n + m := by omega
    simp [hj, hhigh.not_gt, hpos, hcount]

end Sys2Proof.Machine
end

section
/-! `READ` on the machine (spec 40, R53, R57, R58). -/

namespace Sys2Proof.Machine

/-- Settles O12: the read that passes its checks, its cursor by the divmod form and its data bit by bit. -/
theorem readReturnsTheStream : Obligations.ReadReturnsTheStream := by
  intro n s r hs h1 h64 hend
  have hread := readOn_success (id := s.target) hs.2 (requestError_eq_none.2 ⟨h1, h64, hend⟩)
  obtain ⟨hdiv, hmod⟩ := advance_divmod r.wordIndex r.bitsConsumed h64
  refine ⟨_, _, exec_read hs hread, s.agreeExcept_setSlot _ _, State.slot_setSlot_same .., rfl, rfl, rfl, hdiv, hmod,
    rfl, _, rfl, rfl, fun j => ?_⟩
  rw [streamSum_getLsbD _ _ h64, Bool.and_eq_true, decide_eq_true_iff]
  cases streamBit r.words (r.position + j) <;> simp

/-- Settles O19: a successful response carries the declarative sum. -/
theorem resultsAreRightAligned : Obligations.ResultsAreRightAligned := by
  intro n s t r' d h hr' hd hn
  obtain ⟨m, r, q, hm, ⟨hr, hok⟩, hread, rfl⟩ := exec_next h
  cases hm
  rw [State.slot_setSlot_same] at hr'; cases hr'
  rcases readOn_next hok hread with ⟨e, -, rfl⟩ | ⟨-, rfl⟩
  · exact absurd hd (r.raise_lastResponse_ne_ok n e d)
  · rw [Reader.afterRead_lastResponse] at hd
    cases hd
    exact streamSum_ushiftRight_self _ _ hn.le

/-- Settles O20: the position at the end of the storage is the cursor state in which every valid read fails, and an
error leaves the cursor. -/
theorem exhaustedReadersStayExhausted : Obligations.ExhaustedReadersStayExhausted := by
  intro n s r hs hpos h1 h64
  have hex : r.cursorState = .exhausted := by
    have hc := r.bitsConsumed.isLt
    have ⟨_, _, hle, _⟩ := hs
    rw [Reader.position_eq] at hpos
    exact Reader.cursorState_eq_exhausted.2 (by omega)
  exact ⟨hex, _, _, exec_read hs (readOn_error (requestError_of_exhausted hex h1 h64)), State.slot_setSlot_same ..,
    r.raise_lastResponse n .endOfStream, hex, hpos⟩

/-- Settles O21: the split leaves nothing for a next word, and the events of a read are by its split. -/
theorem theWordBehindTheLastIsNotTouched : Obligations.TheWordBehindTheLastIsNotTouched := by
  intro n s r hs hlast h1 hn
  have hleft : leftover r.bitsConsumed = 64 - r.bitsConsumed.toNat := rfl
  have hcur : takeCur r.bitsConsumed n = min (leftover r.bitsConsumed) n := rfl
  have hnext : takeNext r.bitsConsumed n = 0 := by rw [takeNext]; omega
  have hcheck : requestError r n = none :=
    requestError_eq_none.2 ⟨h1, by omega, by rw [Reader.position_eq, ← hlast]; omega⟩
  exact ⟨hnext, _, _, _, exec_read hs (readOn_success hs.2 hcheck), State.slot_setSlot_same ..,
    r.afterRead_lastResponse s.target n,
    congrArg (r.accesses ++ ·) (Reader.readEvents_of_takeNext_eq_zero s.target hnext)⟩

/-- A 64-bit read keeps the offset and goes to the next word (spec 40, R58). -/
theorem advance_sixtyFour (wi : Nat) (c : BitOffset) : advance wi c 64 = (wi + 1, c) := by
  rw [advance, if_neg (by omega), Nat.add_sub_cancel, BitVec.ofNat_toNat, BitVec.setWidth_eq]

/-- At the start of a word, or with a next word, 64 bits are left (spec 40, R58). -/
theorem requestError_sixtyFour_eq_none {r : Reader} {w0 : Word} (hok : r.Ok) (h0 : r.words[r.wordIndex]? = some w0)
    (h : r.bitsConsumed = 0#6 ∨ r.words[r.wordIndex + 1]? ≠ none) : requestError r 64 = none := by
  have hlen : r.words.length = r.len := hok.1
  have hc := r.bitsConsumed.isLt
  obtain ⟨hwi, -⟩ := List.getElem?_eq_some_iff.1 h0
  rw [ne_eq, List.getElem?_eq_none_iff, bitOffset_eq_zero] at h
  exact requestError_eq_none.2 ⟨by omega, le_rfl, by rw [Reader.position_eq]; omega⟩

/-- Inside the last word, fewer than 64 bits are left (spec 40, R58). -/
theorem requestError_sixtyFour_eq_end {r : Reader} (hok : r.Ok) (hc : r.bitsConsumed ≠ 0#6)
    (hlast : r.words[r.wordIndex + 1]? = none) : requestError r 64 = some .endOfStream := by
  have hlen : r.words.length = r.len := hok.1
  rw [List.getElem?_eq_none_iff] at hlast
  rw [ne_eq, bitOffset_eq_zero] at hc
  exact requestError_eq_end.2 ⟨by omega, le_rfl, by rw [Reader.position_eq]; omega⟩

/-- Settles O23: the offset and the next word decide the checks, and the words the data. -/
theorem sixtyFourBitReads : Obligations.SixtyFourBitReads := by
  intro s r w0 hs h0
  have hcursor : (r.afterRead s.target 64).cursor = (r.wordIndex + 1, r.bitsConsumed) :=
    advance_sixtyFour r.wordIndex r.bitsConsumed
  have hdata := r.afterRead_lastResponse s.target 64
  rw [Reader.position_eq] at hdata
  by_cases hc : r.bitsConsumed = 0#6
  · have hcheck := requestError_sixtyFour_eq_none hs.2 h0 (.inl hc)
    refine ⟨_, _, exec_read hs (readOn_success hs.2 hcheck), State.slot_setSlot_same .., fun _ => ⟨?_, ?_⟩,
      absurd hc, absurd hc⟩
    · rw [hdata, hc, BitVec.toNat_zero, Nat.add_zero, streamSum_of_word h0]
    · rw [hcursor, hc]
  · cases h1 : r.words[r.wordIndex + 1]? with
    | none =>
      have hcheck := requestError_sixtyFour_eq_end hs.2 hc h1
      exact ⟨_, _, exec_read hs (readOn_error hcheck), State.slot_setSlot_same .., fun h => absurd h hc,
        fun _ _ => ⟨r.raise_lastResponse 64 .endOfStream, r.raise_cursor 64 .endOfStream⟩, fun _ _ h => (nomatch h)⟩
    | some w1 =>
      have hcheck := requestError_sixtyFour_eq_none hs.2 h0 (.inr (by simp [h1]))
      refine ⟨_, _, exec_read hs (readOn_success hs.2 hcheck), State.slot_setSlot_same .., fun h => absurd h hc,
        fun _ h => (nomatch h), fun _ w h => ⟨?_, hcursor⟩⟩
      cases h
      rw [hdata, streamSum_of_two_words h0 h1]

/-- The position determines the cursor (spec 10, R18). -/
theorem Reader.cursor_eq_of_position_eq {r q : Reader} (h : r.position = q.position) : r.cursor = q.cursor := by
  have hr := r.bitsConsumed.isLt
  have hq := q.bitsConsumed.isLt
  rw [Reader.position_eq, Reader.position_eq] at h
  have hwi : r.wordIndex = q.wordIndex := by omega
  have hbc : r.bitsConsumed = q.bitsConsumed := BitVec.eq_of_toNat_eq (by omega)
  rw [Reader.cursor, Reader.cursor, hwi, hbc]

theorem execAll_cons {i : Instr} {rest : List Instr} {s t : State} (h : exec i s = .next t) :
    execAll (i :: rest) s = execAll rest t := by
  simp only [execAll, h]

/-- Available reads one after another complete, and their results, shifted into place from bit `k` up, are the stretch
of the stream they cover. -/
theorem execAll_reads (ns : List Nat) {s : State} {r : Reader} (hs : s.Addresses r) (hpos : ∀ n ∈ ns, 1 ≤ n)
    (hsum : ns.sum ≤ 64) (hend : r.position + ns.sum ≤ r.len * 64) :
    ∃ t rt ds, execAll (ns.map Instr.read) s = .next t ∧ t.slot s.target = some (.live rt) ∧
      rt.position = r.position + ns.sum ∧ ds.length = ns.length ∧
      rt.transactions = r.transactions ++
        (ns.zip ds).map (fun x => { count := x.1, response := { status := .ok, data := x.2 } }) ∧
      ∀ k, orShifted k (ns.zip ds) = streamSum r.words r.position ns.sum <<< k := by
  induction ns generalizing s r with
  | nil => exact ⟨s, r, [], rfl, hs.1, rfl, rfl, by simp, fun k => by simp [orShifted, streamSum]⟩
  | cons n ns ih =>
    rw [List.sum_cons] at hsum hend
    have h64 : n ≤ 64 := by omega
    have hread := readOn_success (id := s.target) hs.2
      (requestError_eq_none.2 ⟨hpos n List.mem_cons_self, h64, by omega⟩)
    have hafter := r.afterRead_position s.target h64
    obtain ⟨t, rt, ds, ht, hslot, hposition, hlength, htrans, hor⟩ :=
      ih (s := s.setSlot s.target (.live (r.afterRead s.target n))) (r := r.afterRead s.target n)
        ⟨State.slot_setSlot_same .., readOn_keeps_ok hs.2 hread⟩ (fun m hm => hpos m (List.mem_cons_of_mem n hm))
        (by omega) (by rw [hafter]; exact (Nat.add_assoc ..).trans_le hend)
    refine ⟨t, rt, streamSum r.words r.position n :: ds, (execAll_cons (exec_read hs hread)).trans ht, hslot, ?_, ?_,
      ?_, fun k => ?_⟩
    · rw [hposition, hafter, List.sum_cons, Nat.add_assoc]
    · rw [List.length_cons, List.length_cons, hlength]
    · simp [htrans]
    · rw [List.zip_cons_cons, orShifted, hor, hafter, List.sum_cons, streamSum_add _ _ hsum,
        BitVec.shiftLeft_or_distrib, ← BitVec.shiftLeft_add, Nat.add_comm k n]

/-- Settles O18: both ways end at the same position, and give the same stretch of the stream. -/
theorem readsConcatenate : Obligations.ReadsConcatenate := by
  intro ns s r hs hne hpos hsum hend
  obtain ⟨t, rt, ds, ht, hslot, hposition, hlength, htrans, hor⟩ := execAll_reads ns hs hpos hsum hend
  have hone : 1 ≤ ns.sum := by
    obtain ⟨n, hn⟩ := List.exists_mem_of_ne_nil ns hne
    exact (hpos n hn).trans (List.le_sum_of_mem hn)
  have hread := readOn_success (id := s.target) hs.2 (requestError_eq_none.2 ⟨hone, hsum, hend⟩)
  have hcursor := Reader.cursor_eq_of_position_eq (hposition.trans (r.afterRead_position s.target hsum).symm)
  exact ⟨t, _, rt, _, ds, _, ht, exec_read hs hread, hslot, State.slot_setSlot_same .., hcursor, hlength, htrans, rfl,
    (hor 0).trans (BitVec.shiftLeft_zero _)⟩

end Sys2Proof.Machine
end

section
/-! The requests that fail: their outcome, their frame, and the requests after them (spec 60, R62 to R67). -/

namespace Sys2Proof.Machine

/-- The availability test, as the bits that remain (spec 10, R19; 60, R63). -/
theorem Reader.remaining_lt_iff {r : Reader} {n : Nat} (h1 : 1 ≤ n) :
    r.remaining < n ↔ r.len * 64 < r.position + n := by
  rw [Reader.remaining]
  omega

/-- Settles O11: either cause makes the checks raise its error, which adds its response to the record only. -/
theorem errorsHaveNoSideEffects : Obligations.ErrorsHaveNoSideEffects := by
  intro n s r st hs hcause
  have herror : ∃ e : ErrorKind, requestError r n = some e ∧ e.status = st := by
    rcases hcause with ⟨hn, rfl⟩ | ⟨h1, h64, hrem, rfl⟩
    · exact ⟨.invalidBitCount, requestError_eq_invalid.2 hn, rfl⟩
    · exact ⟨.endOfStream, requestError_eq_end.2 ⟨h1, h64, (Reader.remaining_lt_iff h1).1 hrem⟩, rfl⟩
  obtain ⟨e, he, rfl⟩ := herror
  exact ⟨_, r.raise n e, exec_read hs (readOn_error he), s.agreeExcept_setSlot _ _, State.slot_setSlot_same ..,
    r.raise_block n e, r.raise_storage n e, r.raise_accesses n e, r.raise_transactions n e⟩

/-- The response recorded last is the last one given. -/
theorem Reader.lastResponse_of_transactions {r : Reader} {xs : List Transaction} {x : Transaction}
    (h : r.transactions = xs ++ [x]) : r.lastResponse = some x.response := by
  simp [Reader.lastResponse, h]

/-- Settles O13: the checks give the status of the one response, and an error leaves the cursor. -/
theorem outcomeOfARead : Obligations.OutcomeOfARead := by
  intro n s r hs
  obtain ⟨t, r', x, hexec, hslot, htrans, hstatus, -, herror⟩ := exec_read_responds (n := n) hs
  have hend : x.status = .endOfStream ↔ 1 ≤ n ∧ n ≤ 64 ∧ r.remaining < n := by
    rw [hstatus, requestStatus_eq_endOfStream]
  refine ⟨t, r', x, hexec, hslot, Reader.lastResponse_of_transactions htrans, ?_, ?_, hend,
    fun herr => (herror herr).2⟩
  · rw [hstatus, requestStatus_eq_invalidBitCount]
  · rw [hend]
    exact and_congr_right fun h1 => and_congr_right fun _ => Reader.remaining_lt_iff h1

/-- Settles O24: the failed request leaves the block state, on which alone the next one depends. -/
theorem errorsDoNotAffectLaterRequests : Obligations.ErrorsDoNotAffectLaterRequests := by
  intro n m s t rt h hrt hfail
  obtain ⟨k, r, r', hk, hs, hread, rfl⟩ := exec_next h
  cases hk
  rw [State.slot_setSlot_same] at hrt; cases hrt
  rcases readOn_next hs.2 hread with ⟨e, -, rfl⟩ | ⟨-, rfl⟩
  · exact onlyTheBlockStateMatters m _ s _ r ⟨State.slot_setSlot_same .., readOn_keeps_ok hs.2 hread⟩ hs
      (r.raise_block n e)
  · exact absurd (r.afterRead_lastResponse s.target n) (hfail _)

end Sys2Proof.Machine
end

section
/-! Requests without a meaningful reader (spec 10, R25; 70, R77, R84). -/

namespace Sys2Proof.Machine

section NoMeaningfulReader

variable {s : State} (f : Reader → Host.Outcome Reader Fault Refusal)

theorem State.onTarget_of_none (h : s.slot s.target = none) : s.onTarget f = .refused .notConstructed := by
  simp only [State.onTarget, h]

theorem State.onTarget_of_destroyed (h : s.slot s.target = some .destroyed) :
    s.onTarget f = .refused .destroyedReader := by
  simp only [State.onTarget, h]

theorem State.onTarget_of_not_ok {r : Reader} (h : s.slot s.target = some (.live r)) (hr : ¬ r.Ok) :
    s.onTarget f = .refused .brokenInvariant := by
  simp only [State.onTarget, h, if_neg hr]

end NoMeaningfulReader

/-- Settles O9: every request is carried out on the target, where each of the three has its refusal. -/
theorem requestsNeedAMeaningfulReader : Obligations.RequestsNeedAMeaningfulReader := by
  rintro ⟨n⟩ s
  exact ⟨State.onTarget_of_none _, State.onTarget_of_destroyed _, fun _ => State.onTarget_of_not_ok _⟩

end Sys2Proof.Machine
end

section
/-! The availability test in adders of `IDX_W + 7` bits (spec 70, R81). -/

namespace Sys2Proof.Machine

/-- In a state of spec 10, R18, the left side of the test is bounded by the storage and the count's field. -/
theorem Reader.Ok.position_add_le {r : Reader} (h : r.Ok) {n : Nat} (hn : n < 128) :
    r.position + n ≤ r.len * 64 + 127 := by
  have := h.position_le
  omega

/-- Adders that hold both sides of the availability test make the exact one. -/
theorem exhaustedInWidth_eq_true {w n : Nat} {r : Reader} (hlen : r.len * 64 < 2 ^ w)
    (hpos : r.position + n < 2 ^ w) : exhaustedInWidth w r n = true ↔ r.len * 64 < r.position + n := by
  have hhas : BitVec.ofNat w r.len * 64 = BitVec.ofNat w (r.len * 64) := (BitVec.ofNat_mul ..).symm
  have hoffset : r.bitsConsumed.setWidth w = BitVec.ofNat w r.bitsConsumed.toNat := BitVec.eq_of_toNat_eq (by simp)
  have hneeds : BitVec.ofNat w r.wordIndex * 64 + r.bitsConsumed.setWidth w + BitVec.ofNat w n =
      BitVec.ofNat w (r.position + n) := by
    rw [hoffset, Reader.position_eq, BitVec.ofNat_add, BitVec.ofNat_add, BitVec.ofNat_mul]
    rfl
  rw [exhaustedInWidth, hhas, hneeds, BitVec.ult_iff_lt, BitVec.lt_def, BitVec.toNat_ofNat, BitVec.toNat_ofNat,
    Nat.mod_eq_of_lt hlen, Nat.mod_eq_of_lt hpos]

/-- Both sides of the test of a reader of at most `m` words are below the range of `IDX_W + 7` bits. -/
theorem availability_lt_two_pow {len m : Nat} (h : len ≤ m) : len * 64 + 127 < 2 ^ (idxW m + 7) := by
  have hm := lt_two_pow_idxW m
  rw [Nat.pow_add]
  omega

/-- Settles O32: both sides of the test are at most `len * 64 + 127`, which the adders hold. -/
theorem availabilityInIndexWidth : Obligations.AvailabilityInIndexWidth := by
  intro s id n r hs hr hn
  have hpos := (hs.readerOk id r hr).position_add_le hn
  have hwidth := availability_lt_two_pow (hs.lenBound id r hr)
  exact ⟨hpos, exhaustedInWidth_eq_true (by omega) (by omega)⟩

end Sys2Proof.Machine
end

section
/-! What a construction gives (spec 70, R73 to R75). -/

namespace Sys2Proof.Machine

/-- A construction over a storage that no other live reader contradicts has no conflict. -/
theorem storageConflict_eq_false_of_forall {id storage : Nat} {ws : List Word} {l : List (Nat × Slot)}
    (h : ∀ k r, k ≠ id → (k, Slot.live r) ∈ l → r.storage = storage → r.words = ws) :
    storageConflict id storage ws l = false := by
  rw [← Bool.not_eq_true, storageConflict_eq_true]
  rintro ⟨k, r, hmem, hk, hst, hw⟩
  exact hw (h k r hk hmem hst)

section PerformConstruct

variable {s : State} {id : Nat} {ws : List Word} (storage : Nat) (hid : id < s.params.nReaders)
include hid

theorem perform_construct_of_too_long (hlen : s.params.maxWords < ws.length) :
    perform (.construct id storage ws) s = .refused .tooManyWords := by
  rw [perform, construct, if_neg (Nat.not_le.2 hid), if_pos hlen]

theorem perform_construct_of_no_conflict (hlen : ws.length ≤ s.params.maxWords)
    (hc : storageConflict id storage ws s.readers = false) :
    perform (.construct id storage ws) s = .next (s.setSlot id (.live (Reader.construct storage ws))) := by
  rw [perform, construct, if_neg (Nat.not_le.2 hid), if_neg (Nat.not_lt.2 hlen), if_neg (by simp [hc])]

end PerformConstruct

/-- The cursor state of a new reader (spec 70, R75). -/
theorem Reader.construct_cursorState (storage : Nat) (ws : List Word) :
    (Reader.construct storage ws).cursorState = if ws = [] then .exhausted else .freshWord := by
  cases ws <;> rfl

/-- Settles O8: the construction passes its three checks, or fails the one on the length; what it places is the reader
just constructed, whose registers the outputs hold. -/
theorem constructionPlacesTheCursorAtTheStart : Obligations.ConstructionPlacesTheCursorAtTheStart := by
  intro s id storage ws hid
  refine ⟨perform_construct_of_too_long storage hid, fun hlen hshared => ?_⟩
  have hslot := s.slot_setSlot_same id (.live (Reader.construct storage ws))
  exact ⟨_, _, _, perform_construct_of_no_conflict storage hid hlen (storageConflict_eq_false_of_forall hshared),
    s.agreeExcept_setSlot id _, hslot, rfl, rfl, rfl, rfl, rfl, rfl, Reader.construct_cursorState storage ws,
    State.outputs_of_live hslot, toNat_ofNat_idxW hlen, toNat_ofNat_idxW (Nat.zero_le _), rfl⟩

end Sys2Proof.Machine
end

section
/-! The end of a lifetime and the time after it (spec 70, R76, R84). -/

namespace Sys2Proof.Machine

theorem perform_destroy_of_live {s : State} {id : Nat} {r : Reader} (h : s.slot id = some (.live r)) :
    perform (.destroy id) s = .next (s.setSlot id .destroyed) := by
  simp only [perform, destroy, h]

/-- A construction that completes places a reader just constructed, whatever stood there before. -/
theorem perform_construct_next {s t : State} {id storage : Nat} {ws : List Word}
    (h : perform (.construct id storage ws) s = .next t) :
    t = s.setSlot id (.live (Reader.construct storage ws)) := by
  simp only [perform, construct] at h
  split_ifs at h
  cases h
  rfl

/-- Only a construction writes the entry of a destroyed instance: requests and destructions need a live one. -/
theorem perform_keeps_destroyed {a : HostAction} {s t : State} {id : Nat} (hs : s.slot id = some .destroyed)
    (ha : ∀ storage ws, a ≠ .construct id storage ws) (h : perform a s = .next t) : t.slot id = some .destroyed := by
  have hlive : ∀ {k r}, s.slot k = some (.live r) → id ≠ k := by
    rintro k r hr rfl
    rw [hs] at hr
    cases hr
  rcases perform_next h with ⟨k, storage, ws, rfl, -, -, -, rfl⟩ | ⟨k, -, -, r, r', -, -, hr, -, -, rfl⟩ |
    ⟨k, r, -, hr, rfl⟩ | ⟨-, rfl⟩
  · have hne : id ≠ k := by rintro rfl; exact ha storage ws rfl
    exact (s.slot_setSlot_other hne _).trans hs
  · exact (State.slot_setSlot_other _ (hlive hr) _).trans hs
  · exact (s.slot_setSlot_other (hlive hr) _).trans hs
  · exact hs

/-- A destroyed instance stays destroyed over a step that takes no construction of it. -/
theorem step_keeps_destroyed {s t : State} {id : Nat} (hs : s.slot id = some .destroyed) (h : step s = .next t)
    (hp : ∀ storage ws rest, s.pending ≠ .construct id storage ws :: rest) : t.slot id = some .destroyed := by
  rcases step_next h with ⟨-, rfl⟩ | ⟨a, rest, hpend, ha⟩
  · exact hs
  · exact perform_keeps_destroyed (s := { s with pending := rest }) hs
      (fun storage ws hcon => hp storage ws rest (hcon ▸ hpend)) ha

/-- Settles O10: destruction writes the one entry, and what is left of the instance meets every request with its
refusal until a construction writes the entry again. -/
theorem destructionEndsALifetime : Obligations.DestructionEndsALifetime := by
  refine ⟨fun s id r hr => ?_, fun s id hs => ⟨fun count word hw => ?_, fun t ht => step_keeps_destroyed hs ht,
    fun storage ws u hu => ?_⟩⟩
  · exact ⟨_, perform_destroy_of_live hr, s.slot_setSlot_same id _, s.agreeExcept_setSlot id _⟩
  · obtain ⟨-, hdestroyed, -⟩ := requestsNeedAMeaningfulReader (decode word) { s with target := id }
    rw [perform_request_of_presents hw, hdestroyed hs]
  · rw [perform_construct_next hu, State.slot_setSlot_same]

end Sys2Proof.Machine
end

section
/-! The actions that complete are those that keep the duties of the host (spec 70, R83, R84). -/

namespace Sys2Proof.Machine

theorem perform_keeps_pending {a : HostAction} {s t : State} (h : perform a s = .next t) : t.pending = s.pending := by
  rcases perform_next h with ⟨_, _, _, -, -, -, -, rfl⟩ | ⟨_, _, _, _, _, -, -, -, -, -, rfl⟩ |
    ⟨_, _, -, -, rfl⟩ | ⟨-, rfl⟩ <;> rfl

/-- In the table's canonical form, the readers over a storage are those found by their id. -/
theorem storageInUse_eq_false_iff {s : State} (hs : slotsWf s.readers) {storage : Nat} :
    storageInUse storage s.readers = false ↔ ∀ id r, s.slot id = some (.live r) → r.storage ≠ storage := by
  rw [← Bool.not_eq_true, storageInUse_eq_true]
  constructor
  · exact fun h id r hr hst => h ⟨id, r, mem_of_lookupSlot hr, hst⟩
  · rintro h ⟨id, r, hmem, hst⟩
    exact h id r (lookupSlot_of_mem hs hmem) hst

/-- An action that keeps the duties of the host completes. -/
theorem HostAction.Dutiful.exists_next {a : HostAction} {s : State} (ha : a.Dutiful s) (hs : s.Inv) :
    ∃ t, perform a s = .next t := by
  cases a with
  | construct id storage ws =>
    obtain ⟨hid, hlen, hshared⟩ := ha
    exact ⟨_, perform_construct_of_no_conflict storage hid hlen
      (storageConflict_eq_false_of_forall fun k r hk hmem => hshared k r hk (lookupSlot_of_mem hs.table hmem))⟩
  | request id count word =>
    obtain ⟨⟨r, hr⟩, hw⟩ := ha
    have hok := hs.readerOk id r hr
    obtain ⟨r', hread⟩ := readOn_total id word.toNat hok
    rw [perform_request_of_presents hw]
    exact ⟨_, exec_read ⟨hr, hok⟩ hread⟩
  | observe id => exact ⟨s, rfl⟩
  | destroy id =>
    obtain ⟨r, hr⟩ := ha
    exact ⟨_, perform_destroy_of_live hr⟩
  | writeStorage storage index value =>
    have hfree := (storageInUse_eq_false_iff hs.table).2 ha
    exact ⟨s, if_neg (by simp [hfree])⟩
  | overlappingRequest id word => exact ha.elim

/-- An action that completes kept the duties of the host. -/
theorem dutiful_of_perform_next {a : HostAction} {s t : State} (hs : s.Inv) (h : perform a s = .next t) :
    a.Dutiful s := by
  rcases perform_next h with ⟨id, storage, ws, rfl, hid, hlen, hc, -⟩ |
    ⟨id, count, word, r, r', rfl, hw, hr, -, -, -⟩ | ⟨id, r, rfl, hr, -⟩ |
    ⟨⟨id, rfl⟩ | ⟨storage, index, value, rfl, hfree⟩, -⟩
  · exact ⟨hid, hlen, fun _ _ => State.words_of_no_conflict hc⟩
  · exact ⟨⟨r, hr⟩, hw⟩
  · exact ⟨r, hr⟩
  · trivial
  · exact (storageInUse_eq_false_iff hs.table).1 hfree

/-- An action that breaks a duty is refused: it does not complete, and no action faults. -/
theorem perform_refused_of_not_dutiful {a : HostAction} {s : State} (hs : s.Inv) (ha : ¬ a.Dutiful s) :
    ∃ e, perform a s = .refused e := by
  cases h : perform a s with
  | next t => exact absurd (dutiful_of_perform_next hs h) ha
  | fault e => exact absurd h (perform_ne_fault a s e)
  | refused e => exact ⟨e, rfl⟩

theorem perform_writeStorage_refused {storage index : Nat} {value : Word} {s : State} {e : Refusal}
    (h : perform (.writeStorage storage index value) s = .refused e) : e = .storageModified := by
  simp only [perform, writeStorage] at h
  split_ifs at h
  cases h
  rfl

/-- Settles O39: the actions that complete are the dutiful ones, no other faults, and each breach named has one
refusal. -/
theorem dutifulActionsComplete : Obligations.DutifulActionsComplete := by
  intro s a rest hs hp
  have hs' : ({ s with pending := rest } : State).Inv := hs.withPort s.target rest
  have hduty : a.Dutiful { s with pending := rest } ↔ a.Dutiful s := by cases a <;> rfl
  rw [step_of_pending_cons hp, ← hduty]
  refine ⟨fun ha => ?_, fun ha => ?_⟩
  · obtain ⟨t, ht⟩ := ha.exists_next hs'
    exact ⟨t, ht, perform_keeps_pending ht⟩
  · obtain ⟨e, he⟩ := perform_refused_of_not_dutiful hs' ha
    refine ⟨e, he, ?_, ?_, ?_⟩
    · rintro id word rfl
      cases he; rfl
    · rintro storage index value rfl
      exact perform_writeStorage_refused he
    · rintro id count word rfl hw
      rw [perform_request_of_not_presents hw] at he
      cases he; rfl

end Sys2Proof.Machine
end

section
/-! The launch state (spec 70, R75, R77), and the parameters over every step (spec 00, R9). -/

namespace Sys2Proof.Machine

/-- No action of the host writes the parameters: it writes one entry of the table, or nothing. -/
theorem perform_keeps_params {a : HostAction} {s t : State} (h : perform a s = .next t) : t.params = s.params := by
  rcases perform_next h with ⟨id, storage, ws, -, -, -, -, rfl⟩ | ⟨id, -, -, r, r', -, -, -, -, -, rfl⟩ |
    ⟨id, r, -, -, rfl⟩ | ⟨-, rfl⟩
  · exact s.setSlot_params id _
  · exact State.setSlot_params _ id _
  · exact s.setSlot_params id _
  · rfl

/-- Settles O43: a step holds the state, or takes the host's next action off the list and performs it. -/
theorem parametersAreFixed : Obligations.ParametersAreFixed := by
  intro s t h
  rcases step_next h with ⟨-, rfl⟩ | ⟨a, rest, -, ha⟩
  · rfl
  · exact perform_keeps_params (s := { s with pending := rest }) ha

/-- The one entry of the launch state's table is a reader just constructed, over the empty storage. -/
theorem reset_slot_eq_some {id : Nat} {x : Slot} :
    State.reset.slot id = some x ↔ id = 0 ∧ x = .live (Reader.construct 0 []) := by
  show (if 0 = id then some (Slot.live (Reader.construct 0 [])) else none) = some x ↔ _
  split_ifs with h
  · simp [h, eq_comm]
  · simp [Ne.symm h]

theorem reset_slot_zero : State.reset.slot 0 = some (.live (Reader.construct 0 [])) :=
  reset_slot_eq_some.2 ⟨rfl, rfl⟩

/-- What holds of the reader just constructed holds of every live reader of the launch state. -/
theorem reset_each_reader {P : Nat → Reader → Prop} (h : P 0 (Reader.construct 0 [])) {id : Nat} {r : Reader}
    (hr : State.reset.slot id = some (.live r)) : P id r := by
  obtain ⟨rfl, hlive⟩ := reset_slot_eq_some.1 hr
  cases hlive
  exact h

/-- The launch state meets the invariant: its one reader is at the start of an empty storage, under an id below
`NREADERS`, which is at least 1. -/
theorem reset_inv : State.reset.Inv where
  table := reset_canonical.1
  readerOk _ _ := reset_each_reader (P := fun _ r => r.Ok) ⟨rfl, Nat.zero_le _, fun _ => rfl⟩
  lenBound _ _ := reset_each_reader (P := fun _ r => r.len ≤ State.reset.params.maxWords) (Nat.zero_le _)
  idBound := by
    intro id x hx
    obtain ⟨rfl, -⟩ := reset_slot_eq_some.1 hx
    exact Nat.succ_pos Config.extraReaders
  shared := by
    intro id id' r r' hr hr' _
    obtain ⟨-, hlive⟩ := reset_slot_eq_some.1 hr
    obtain ⟨-, hlive'⟩ := reset_slot_eq_some.1 hr'
    cases hlive; cases hlive'; rfl

/-- Settles O5: the invariant, and the two records of a reader just constructed. -/
theorem resetMeetsInvariants : Obligations.ResetMeetsInvariants :=
  ⟨reset_inv, fun _ _ => reset_each_reader (P := fun _ => Reader.InOrder) (Reader.construct_inOrder 0 []),
    fun _ _ => reset_each_reader (P := Reader.Recorded) (Reader.construct_recorded 0 0 [])⟩

/-- Settles O6: the table holds that one reader, whose registers the outputs show. -/
theorem resetIsAConstructedReader : Obligations.ResetIsAConstructedReader := by
  refine ⟨reset_slot_zero, rfl, fun id hid => ?_, ?_⟩
  · rw [Option.eq_none_iff_forall_ne_some]
    exact fun x hx => hid (reset_slot_eq_some.1 hx).1
  · exact outputsShowTheRegisters.1 State.reset 0 _ reset_inv reset_slot_zero

end Sys2Proof.Machine
end
